-- ==== Sys2Proof/Word.lean ====
section
/-! DEFINITION. The words of R2M-CORE: the byte, the input beat, the 21-byte window, the two axis bitmaps, and the
word that selects an operation (one format per `format` of `spec/opcode_table.json`). -/

namespace Sys2Proof

/-- One byte of the stream, `bits8` of rule R11. -/
abbrev Byte := BitVec 8

/-- The input beat of one clock cycle, the 10-bit pattern `rst, in_valid, in_byte[7:0]` of rule R55:
bit 9 is `rst`, bit 8 is `in_valid`, bits 7 to 0 are `in_byte`. -/
abbrev Beat := BitVec 10

/-- The window `W` of rule R21: 21 bytes, entry 0 the oldest, entry 20 the newest. -/
abbrev Window := Vector Byte 21

/-- The 17 payload bytes `W[3..20)` of rule R59. -/
abbrev Payload := Vector Byte 17

/-- The window as the one 168-bit value `FW` of rule R57, `W[0]` in the most significant byte. -/
abbrev FrameWord := BitVec 168

/-- `horizontal[0..48)` of rule R13: one `bool` per horizontal position. -/
abbrev Horizontal := Vector Bool 48

/-- `vertical[0..76)` of rule R13: one `bool` per vertical position. -/
abbrev Vertical := Vector Bool 76

/-- What selects an operation, by the formats of rule R73. `beat` is the pattern on the input pins; `shift` is the
same pattern taken as step 1 of a `PUSH` in progress (R83: SHIFT has no encoding of its own); `validate` and
`decode` are the WINDOW format read as steps 2 and 3 of a `PUSH` (R95, R110); `bitmaps` is the BITMAPS format of
ESTIMATE; `edge` is the 2-bit pattern `held, active` of the EDGE format. -/
inductive OpWord where
  | beat (w : BitVec 10)
  | shift (w : BitVec 10)
  | validate (fw : BitVec 168)
  | decode (fw : BitVec 168)
  | bitmaps (w : BitVec 124)
  | edge (w : BitVec 2)
deriving DecidableEq, Repr

end Sys2Proof
end

