-- ==== Sys2Proof/Config.lean ====
section
/-! DEFINITION. What an implementation fixes: the constants of rule R7, the parameters of rule R8 with their named
alternatives, and the values the spec leaves open (power-on contents, rule R182). -/

namespace Sys2Proof

/-- `BIT_ORDER` of rule R8. `lsb0`: bit `k` of a byte has weight 2^k; `msb0`: it has weight 2^(7-k). -/
inductive BitOrder where
  | lsb0
  | msb0
deriving DecidableEq, Repr

/-- `MIDPOINT_MODE` of rule R8. `exact`: the midpoint is the rational (min+max)/2; `floor`: it is (min+max) div 2. -/
inductive MidpointMode where
  | exact
  | floor
deriving DecidableEq, Repr

namespace Config

/-- First byte of `MAGIC` (rule R7, rule R58), the ASCII letter U. -/
def magic0 : Byte := 0x55
/-- Second byte of `MAGIC` (rule R7, rule R58), the ASCII letter T. -/
def magic1 : Byte := 0x54
/-- Third byte of `MAGIC` (rule R7, rule R58), the ASCII letter L. -/
def magic2 : Byte := 0x4C
/-- `CSUM_K1` of rule R7. -/
def csumK1 : Nat := 0xFF
/-- `CSUM_K2` of rule R7. -/
def csumK2 : Nat := 0xA0
/-- `PAYLOAD_OFF` of rule R7. -/
def payloadOff : Nat := 3
/-- `V_OFF` of rule R7. -/
def vOff : Nat := 3
/-- `H_OFF` of rule R7. -/
def hOff : Nat := 14
/-- `INIT_FILL` of rule R8, decision D3. -/
def initFill : Byte := 0x00
/-- `BIT_ORDER` of this block (rule R10, rule R43, decision D4). -/
def bitOrder : BitOrder := .lsb0
/-- `MIDPOINT_MODE` of this block (rule R130, decision D10). -/
def midpointMode : MidpointMode := .exact

/-- The window before the first `RESET`: unspecified by rule R182, so a free value (log entry 6). -/
opaque powerOnWindow : Window
/-- `held` before the first `RESET`: unspecified by rule R182, so a free value (log entry 6). -/
opaque powerOnHeld : Bool
/-- The output register `O` before the first `RESET`, as the 46 bits of rule R65: unspecified by rule R182, so a
free value (log entry 6). -/
opaque powerOnOut : BitVec 46

end Config
end Sys2Proof
end

