-- ==== Sys2Proof/Syntax.lean ====
section
/-! DEFINITION. The operations of R2M-CORE, one constructor per row of `spec/opcode_table.json` (rule R73), each with
the operands rule R69 gives it. -/

namespace Sys2Proof

/-- The 11 operations of rule R73: three input beats and the eight internal operations a `PUSH` is made of.
The operands of an operation are the bits of its format that it reads: a `PUSH` or `SHIFT` the byte, `VALIDATE` and
`DECODE` the window, `ESTIMATE` the two arrays. An EDGE row has no operand left: its pattern fixes `held` and
`active`. -/
inductive Instr where
  /-- `RESET`, rule R87. -/
  | reset
  /-- `IDLE`, rule R81. -/
  | idle
  /-- `PUSH b`, rule R82. -/
  | push (b : Byte)
  /-- `SHIFT(W, b)`, rule R83. -/
  | shift (b : Byte)
  /-- `VALIDATE(W')`, rule R95. -/
  | validate (w : Window)
  /-- `DECODE(W')`, rule R110. -/
  | decode (w : Window)
  /-- `ESTIMATE(horizontal, vertical)`, rule R125. -/
  | estimate (h : Horizontal) (v : Vertical)
  /-- `EDGE_PRESS`, rule R146: `held = 0`, `active = 1`. -/
  | edgePress
  /-- `EDGE_RELEASE`, rule R147: `held = 1`, `active = 0`. -/
  | edgeRelease
  /-- `EDGE_STAY_RELEASED`, rule R148: `held = 0`, `active = 0`. -/
  | edgeStayReleased
  /-- `EDGE_STAY_HELD`, rule R149: `held = 1`, `active = 1`. -/
  | edgeStayHeld
deriving DecidableEq, Repr

/-- The formats of `spec/opcode_table.json`. SHIFT, marked internal there, and the two WINDOW rows are told apart by
the step of the `PUSH` they are read at. -/
inductive Format where
  | beat
  | shift
  | validate
  | decode
  | bitmaps
  | edge
deriving DecidableEq, Repr

/-- The format of a word. -/
def OpWord.format : OpWord → Format
  | .beat _ => .beat
  | .shift _ => .shift
  | .validate _ => .validate
  | .decode _ => .decode
  | .bitmaps _ => .bitmaps
  | .edge _ => .edge

/-- The format the opcode table gives an operation (rule R73). -/
def Instr.format : Instr → Format
  | .reset => .beat
  | .idle => .beat
  | .push _ => .beat
  | .shift _ => .shift
  | .validate _ => .validate
  | .decode _ => .decode
  | .estimate _ _ => .bitmaps
  | .edgePress => .edge
  | .edgeRelease => .edge
  | .edgeStayReleased => .edge
  | .edgeStayHeld => .edge

/-- Why a word selects no operation at its place. No input beat is ever refused (rule R56). -/
inductive DecodeError where
  /-- A word at the SHIFT step that is not the pattern `01bbbbbbbb` (rule R73). -/
  | notAPush
  /-- A window at the DECODE step that VALIDATE does not accept (rule R110: an invalid window is never decoded). -/
  | notAFrame
deriving DecidableEq, Repr

end Sys2Proof
end

