-- ==== Sys2Proof/Machine/State.lean ====
section
/-! DEFINITION. The state of R2M-CORE as plain data (rules R20 to R33), the results of the internal operations, the
reasons a step can stop, and the state after reset (rule R180). -/

namespace Sys2Proof.Machine

/-- The result of the Edge Detector (rule R66): no transition, a press, or a release. -/
inductive Event where
  | none
  | press
  | release
deriving DecidableEq, Repr

/-- The bounding box a pair scan has seen so far (rule R125), as exact naturals. -/
structure Box where
  minX : Nat
  maxX : Nat
  minY : Nat
  maxY : Nat
deriving DecidableEq, Repr

/-- The touch estimate, the result of `ESTIMATE` (rule R125), its fields at the widths of rule R131. -/
structure Estimate where
  active : Bool
  minX : BitVec 6
  maxX : BitVec 6
  minY : BitVec 7
  maxY : BitVec 7
  xNum : BitVec 7
  yNum : BitVec 8
deriving DecidableEq, Repr

/-- The output register `O` (rule R30), field by field. `event` holds the 2-bit code of rule R66, whose code 3 is
reserved; a power-on register may hold anything (rule R182). -/
structure OutBeat where
  outValid : Bool
  frameOk : Bool
  active : Bool
  event : BitVec 2
  minX : BitVec 6
  maxX : BitVec 6
  minY : BitVec 7
  maxY : BitVec 7
  xNum : BitVec 7
  yNum : BitVec 8
deriving DecidableEq, Repr

/-- The output ports of rule R31: the fields of `O`, and `held`. -/
structure Ports where
  beat : OutBeat
  held : Bool
deriving DecidableEq, Repr

/-- The model's own (log entry 2): which operation runs next. `boundary` is the only place between two clock cycles;
the others name the points inside one `PUSH` (rule R3), with the values rule R29 says are computed there and not
stored. No beat started at `boundary` ends anywhere else. -/
inductive Stage where
  | boundary
  | shift (b : Byte)
  | validate
  | decode
  | estimate (h : Horizontal) (v : Vertical)
  | edge (e : Estimate)
deriving DecidableEq, Repr

/-- The state. `window` (R21) and `held` (R23) are the architectural state of rule R20, `out` is the output register
`O` (R30). `input` and `stage` are the model's own (log entries 1 and 2): the beats the host will drive, the first
one next, and the place inside a beat. -/
structure State where
  window : Window
  held : Bool
  out : OutBeat
  input : List Beat
  stage : Stage
deriving DecidableEq, Repr

/-- No fault: rule R160 says that no input beat and no window contents can cause one. -/
inductive Fault
deriving DecidableEq, Repr

/-- Why a step has no meaning. -/
inductive Refusal where
  /-- An arm of `exec` whose instruction has no meaning yet; no arm answers it. Safe. -/
  | notModelled (mnemonic : String)
  /-- `step` at a place inside a `PUSH` whose word selects no operation there: a DECODE of a window that is not a
  frame. No state `State.Inv` admits raises it, so no run from reset does. Safe. -/
  | undecodable (why : DecodeError)
deriving DecidableEq, Repr

/-- The outcome of one step of this machine. -/
abbrev Result := Host.Outcome State Fault Refusal

/-- The output beat with every field 0 (rules R30, R81, R87): no report. -/
def OutBeat.zero : OutBeat :=
  { outValid := false, frameOk := false, active := false, event := 0, minX := 0, maxX := 0, minY := 0, maxY := 0,
    xNum := 0, yNum := 0 }

/-- The window after reset: `INIT_FILL` in all 21 bytes (rule R21). -/
def resetWindow : Window := Vector.replicate 21 Config.initFill

/-- The machine right after reset (rule R180): the window zero, Released, the output register zero; no beat is
waiting (log entry 1) and the machine stands between two cycles. -/
def State.reset : State :=
  { window := resetWindow, held := false, out := OutBeat.zero, input := [], stage := .boundary }

end Sys2Proof.Machine
end

