-- ==== Sys2Proof/Machine/Operands.lean ====
section
/-! DEFINITION. The operand forms: the bits of a byte (R10), the fields of a window (R57 to R60), the axis bits (R61,
R62), the packed forms of the window, the two bitmaps and the output beat (R57, R65), and the stream notation (R70,
R71). -/

namespace Sys2Proof.Machine

/-- `bit(b, k)` of rule R10 for `k < 8`, under either `BIT_ORDER` of rule R8. -/
def bit (o : BitOrder) (b : Byte) (k : Nat) : Bool :=
  match o with
  | .lsb0 => b.getLsbD k
  | .msb0 => b.getLsbD (7 - k)

/-- The `n`-bit word whose bit `i`, of weight 2^i, is `f i`. -/
def bitsOf (n : Nat) (f : Fin n → Bool) : BitVec n :=
  (BitVec.ofBoolListLE (List.ofFn f)).cast (List.length_ofFn)

/-! ### The window (rules R57 to R60) -/

/-- `FW` of rule R57: byte `W[i]` is `FW[167 - 8*i : 160 - 8*i]`. -/
def packWindow (w : Window) : FrameWord :=
  bitsOf 168 fun j => (w[20 - j.val / 8]).getLsbD (j.val % 8)

/-- The window whose `FW` is given (rule R57). -/
def unpackWindow (fw : FrameWord) : Window :=
  Vector.ofFn fun i : Fin 21 => fw.extractLsb' (160 - 8 * i.val) 8

/-- The payload field, payload byte `j` being `W[3 + j]` (rule R59). -/
def payloadOf (w : Window) : Payload :=
  Vector.ofFn fun j : Fin 17 => w[Config.payloadOff + j.val]'(by unfold Config.payloadOff; omega)

/-- The checksum field `W[20]` (rule R60). -/
def checksumByte (w : Window) : Byte := w[20]

/-- The window that holds the frame with payload `p` and check byte `c` (rule R70, BADFRAME). -/
def frameWindow (p : Payload) (c : Byte) : Window :=
  (#v[Config.magic0, Config.magic1, Config.magic2] ++ p ++ #v[c] : Vector Byte (3 + 17 + 1))

/-! ### The axis bits (rules R61, R62, R111, R112) -/

/-- `vertical[k]`, index-reversed: logical bit `75 - k` of the axis that starts at frame offset 3 (rule R111). -/
def verticalBit (o : BitOrder) (w : Window) (k : Fin 76) : Bool :=
  bit o (w[Config.vOff + (75 - k.val) / 8]'(by unfold Config.vOff; omega)) ((75 - k.val) % 8)

/-- `horizontal[x]`, in natural order from frame offset 14 (rule R112). -/
def horizontalBit (o : BitOrder) (w : Window) (x : Fin 48) : Bool :=
  bit o (w[Config.hOff + x.val / 8]'(by unfold Config.hOff; omega)) (x.val % 8)

/-- The array `horizontal[0..48)` of `DECODE` (rule R110). -/
def horizontalOf (o : BitOrder) (w : Window) : Horizontal := Vector.ofFn (horizontalBit o w)

/-- The array `vertical[0..76)` of `DECODE` (rule R110). -/
def verticalOf (o : BitOrder) (w : Window) : Vertical := Vector.ofFn (verticalBit o w)

/-- The payload of `TOUCH(Hs; Vs)` (rule R71): payload bytes 0 to 10 carry vertical entry `75 - y` at logical bit `y`,
bytes 11 to 16 the horizontal entries, and the 12 unused bits stay 0. -/
def touchPayload (h : Horizontal) (v : Vertical) : Payload :=
  Vector.ofFn fun j : Fin 17 => bitsOf 8 fun i =>
    if j.val < 11 then
      let y := 8 * j.val + i.val
      if y ≤ 75 then v[75 - y] else false
    else h[8 * (j.val - 11) + i.val]

/-! ### The two bitmaps as the 124-bit BITMAPS word of the opcode table -/

/-- The BITMAPS word: `horizontal` in bits 123 to 76, `vertical` in bits 75 to 0, entry `i` at bit `i` of its part
(log entry 5). -/
def packBitmaps (h : Horizontal) (v : Vertical) : BitVec 124 :=
  bitsOf 124 fun j => if hj : j.val < 76 then v[j.val] else h[j.val - 76]

/-- The `horizontal` part of a BITMAPS word. -/
def bitmapsH (w : BitVec 124) : Horizontal := Vector.ofFn fun x : Fin 48 => w.getLsbD (76 + x.val)

/-- The `vertical` part of a BITMAPS word. -/
def bitmapsV (w : BitVec 124) : Vertical := Vector.ofFn fun k : Fin 76 => w.getLsbD k.val

/-! ### The output beat (rules R65, R66) -/

/-- The 2-bit code of an event (rule R66). -/
def Event.code : Event → BitVec 2
  | .none => 0
  | .press => 1
  | .release => 2

/-- The event a consumer reads from a code; the reserved code 3 is no event of this block, and the answer is
`Option.none` (rules R66, R67). -/
def Event.ofCode (c : BitVec 2) : Option Event :=
  if c = 0 then some .none else if c = 1 then some .press else if c = 2 then some .release else Option.none

/-- `OUT[45:0]`, the packed output beat (rule R65), the field of bits 45 to 38 first. -/
def OutBeat.pack (o : OutBeat) : BitVec 46 :=
  o.yNum ++ o.xNum ++ o.maxY ++ o.minY ++ o.maxX ++ o.minX ++ o.event ++ BitVec.ofBool o.active ++
    BitVec.ofBool o.frameOk ++ BitVec.ofBool o.outValid

/-- The fields of a packed output beat (rule R65). -/
def OutBeat.unpack (w : BitVec 46) : OutBeat :=
  { outValid := w.getLsbD 0, frameOk := w.getLsbD 1, active := w.getLsbD 2, event := w.extractLsb' 3 2,
    minX := w.extractLsb' 5 6, maxX := w.extractLsb' 11 6, minY := w.extractLsb' 17 7, maxY := w.extractLsb' 24 7,
    xNum := w.extractLsb' 31 7, yNum := w.extractLsb' 38 8 }

/-! ### The input beat (rules R55, R70) -/

/-- The beat word of `PUSH b` (rule R55). -/
def pushWord (b : Byte) : Beat := 1#2 ++ b

/-- The beat word of `IDLE` with `in_byte = 0` (rule R55). -/
def idleWord : Beat := 0x000

/-- The beat word of `RESET` with `in_valid = 0` and `in_byte = 0` (rule R55). -/
def resetWord : Beat := 0x200

/-- The beat word of `RESET(0xNN)`: a RESET with `in_valid = 1`, whose byte is dropped (rule R70). -/
def resetWordWith (b : Byte) : Beat := 3#2 ++ b

/-- The beats that push a window's 21 bytes in wire order (rules R41, R70). -/
def windowBeats (w : Window) : List Beat := w.toList.map pushWord

end Sys2Proof.Machine
end

