-- ==== Sys2Proof/Machine/Flags.lean ====
section
/-! DEFINITION. The flags of rule R26: `frame_ok` with its checksum (R95 to R100), and the edge detector's `held` and
`event` (R145). The flag `active` is computed in Machine/Estimator.lean. -/

namespace Sys2Proof.Machine

/-- `CHECKSUM(p)` of rule R98: the exact sum of the two constants and the 17 bytes, reduced once mod 256. -/
def checksum (p : Payload) : Byte :=
  BitVec.ofNat 8 (Config.csumK1 + (p.toList.map BitVec.toNat).sum + Config.csumK2)

/-- The magic check (rule R96): three whole bytes at offsets 0, 1, 2. -/
def magicOk (w : Window) : Bool :=
  w[0] == Config.magic0 && w[1] == Config.magic1 && w[2] == Config.magic2

/-- `VALIDATE(W)`, the flag `frame_ok` (rules R95, R97, R100). -/
def validate (w : Window) : Bool :=
  if magicOk w then checksum (payloadOf w) == checksumByte w else false

/-- The three classes of rule R64. -/
inductive WindowClass where
  | frame
  | badMagic
  | badChecksum
deriving DecidableEq, Repr

/-- The class of a window (rule R64). -/
def classify (w : Window) : WindowClass :=
  if magicOk w then (if checksum (payloadOf w) = checksumByte w then .frame else .badChecksum) else .badMagic

/-- `EDGE(held, a)` of rule R145: the next `held` and the event. -/
def edge (held a : Bool) : Bool × Event :=
  match held, a with
  | false, true => (true, .press)
  | true, false => (false, .release)
  | false, false => (false, .none)
  | true, true => (true, .none)

/-- The frame with payload `p`: the pseudo-operation FRAME of rule R70. -/
def goodFrame (p : Payload) : Window := frameWindow p (checksum p)

/-- The frame of the pseudo-operation `TOUCH(Hs; Vs)` of rule R70. -/
def touchFrame (h : Horizontal) (v : Vertical) : Window := goodFrame (touchPayload h v)

/-- The frame of `EMPTY`, which is `TOUCH` of two empty sets (rule R70). -/
def emptyFrame : Window := touchFrame (Vector.replicate 48 false) (Vector.replicate 76 false)

end Sys2Proof.Machine
end

