-- ==== Sys2Proof/Machine/Ops.lean ====
section
/-! DEFINITION. The named operations over the state: the window shift (R83), the clock edge (R12, R82), the output beats
a step can leave (R30, R65), the place inside a `PUSH`, and the ports (R31). Taking an exception and returning from one
have no operation here: rules R160 and R165 say the block has neither. -/

namespace Sys2Proof.Machine

/-- `SHIFT(W, b)` (rule R83): the oldest byte is dropped, the newest appended at the tail. -/
def shiftWindow (w : Window) (b : Byte) : Window :=
  Vector.ofFn fun i : Fin 21 => if h : i.val < 20 then w[i.val + 1] else b

/-- The clock edge that ends a beat (rule R82): `W`, `held` and `O` are written together, and the machine stands
between two cycles. -/
def State.latch (s : State) (w : Window) (held : Bool) (o : OutBeat) : State :=
  { s with window := w, held := held, out := o, stage := .boundary }

/-- Move to another place inside a `PUSH` (rule R3); nothing else changes. -/
def State.enter (s : State) (st : Stage) : State := { s with stage := st }

/-- Write the window inside a `PUSH`. -/
def State.setWindow (s : State) (w : Window) : State := { s with window := w }

/-- The estimate of a frame without a touch (rules R125, R133, decision D8): every field 0. -/
def Estimate.inactive : Estimate :=
  { active := false, minX := 0, maxX := 0, minY := 0, maxY := 0, xNum := 0, yNum := 0 }

/-- The estimate in flight, with `active` as the EDGE operation's pattern has it; the point fields are 0 unless
`active = 1` (rule R65). -/
def Estimate.withActive (e : Estimate) (a : Bool) : Estimate :=
  if a then { e with active := true } else Estimate.inactive

/-- The estimate of the `PUSH` in progress (rule R29); with none in flight, no touch. -/
def Stage.inFlight : Stage → Estimate
  | .boundary => Estimate.inactive
  | .shift _ => Estimate.inactive
  | .validate => Estimate.inactive
  | .decode => Estimate.inactive
  | .estimate _ _ => Estimate.inactive
  | .edge e => e

/-- The output beat of a `PUSH` whose window is not a frame (rule R82, rule R92). -/
def syncLossBeat : OutBeat := { OutBeat.zero with outValid := true }

/-- The output beat of a `PUSH` whose window is a frame (rule R82). -/
def frameBeat (e : Estimate) (ev : Event) : OutBeat :=
  { outValid := true, frameOk := true, active := e.active, event := ev.code, minX := e.minX, maxX := e.maxX,
    minY := e.minY, maxY := e.maxY, xNum := e.xNum, yNum := e.yNum }

/-- The end of a `PUSH` on a frame, run by the EDGE operation: the next `held`, and the output beat of the estimate in
flight with the operation's `active` and event. -/
def State.finishEdge (s : State) (held a : Bool) (ev : Event) : State :=
  s.latch s.window held (frameBeat (s.stage.inFlight.withActive a) ev)

/-- The output ports (rule R31): the fields of `O` and the `held` register. -/
def State.ports (s : State) : Ports := { beat := s.out, held := s.held }

/-- The input pins of this cycle (rule R31): the next beat the host drives, or 0, which is `IDLE`, when it drives
none (log entry 1). -/
def State.pins (s : State) : Beat :=
  match s.input with
  | [] => idleWord
  | w :: _ => w

end Sys2Proof.Machine
end

