-- ==== Sys2Proof/Machine/Decoder.lean ====
section
/-! DEFINITION. The Bit-Grid Decoder (rules R110 to R118): the meaning of DECODE. -/

namespace Sys2Proof.Machine

/-- DECODE (rules R110, R117): no state is written; the two arrays go to the ESTIMATE step. -/
def execDecode (w : Window) (s : State) : Result :=
  .next (s.enter (.estimate (horizontalOf Config.bitOrder w) (verticalOf Config.bitOrder w)))

end Sys2Proof.Machine
end

