-- ==== Sys2Proof/Machine/EdgeDetector.lean ====
section
/-! DEFINITION. The Edge Detector (rules R145 to R153): the meanings of its four transitions. Each writes `held` and
the event as its rule says and, being the last step of its `PUSH`, ends the beat (log entry 3). -/

namespace Sys2Proof.Machine

/-- EDGE_PRESS (rule R146): `held' <- 1; event <- PRESS`. -/
def execEdgePress (s : State) : Result := .next (s.finishEdge true true .press)

/-- EDGE_RELEASE (rule R147): `held' <- 0; event <- RELEASE`. -/
def execEdgeRelease (s : State) : Result := .next (s.finishEdge false false .release)

/-- EDGE_STAY_RELEASED (rule R148): `held' <- 0; event <- NONE`. -/
def execEdgeStayReleased (s : State) : Result := .next (s.finishEdge false false .none)

/-- EDGE_STAY_HELD (rule R149): `held' <- 1; event <- NONE`. -/
def execEdgeStayHeld (s : State) : Result := .next (s.finishEdge true true .none)

end Sys2Proof.Machine
end

