-- ==== Sys2Proof/Machine/Estimator.lean ====
section
/-! DEFINITION. The Touch Estimator (rules R125 to R137): the pair scan, the estimate, the normalized point, and the
meaning of ESTIMATE. -/

namespace Sys2Proof.Machine

/-- Take one pair of the pair set into the box (rule R125): the first pair opens it, every later one widens it. -/
def Box.visit (b : Option Box) (x y : Nat) : Box :=
  match b with
  | none => { minX := x, maxX := x, minY := y, maxY := y }
  | some b => { minX := min b.minX x, maxX := max b.maxX x, minY := min b.minY y, maxY := max b.maxY y }

/-- One turn of the scan (rule R125): the pair counts where both entries are 1. -/
def scanPair (h : Horizontal) (v : Vertical) (b : Option Box) (x : Fin 48) (y : Fin 76) : Option Box :=
  if h[x.val] && v[y.val] then some (Box.visit b x.val y.val) else b

/-- The inner loop of rule R125, `y` in 0..75. -/
def scanRow (h : Horizontal) (v : Vertical) (b : Option Box) (x : Fin 48) : Option Box :=
  (List.finRange 76).foldl (fun b y => scanPair h v b x y) b

/-- The pair scan of rule R125, `x` in 0..47 and for each `x` every `y`; no box while `found = 0`.
Irreducible, so that no elaborator runs the 3648 turns; the kernel and `unfold` still see the body. -/
@[irreducible] def scanPairs (h : Horizontal) (v : Vertical) : Option Box :=
  (List.finRange 48).foldl (scanRow h v) none

/-- The estimate of a box (rules R125, R131): `x_num` and `y_num` are the exact sums, narrowed to their fields. -/
def Box.toEstimate (b : Box) : Estimate :=
  { active := true, minX := BitVec.ofNat 6 b.minX, maxX := BitVec.ofNat 6 b.maxX, minY := BitVec.ofNat 7 b.minY,
    maxY := BitVec.ofNat 7 b.maxY, xNum := BitVec.ofNat 7 (b.minX + b.maxX), yNum := BitVec.ofNat 8 (b.minY + b.maxY) }

/-- `ESTIMATE(horizontal, vertical)` (rule R125). -/
def estimate (h : Horizontal) (v : Vertical) : Estimate :=
  match scanPairs h v with
  | none => Estimate.inactive
  | some b => b.toEstimate

/-- The normalized `x` that a consumer forms from `x_num` (rule R130). -/
def pointX (m : MidpointMode) (xNum : BitVec 7) : ℚ :=
  match m with
  | .exact => (xNum.toNat : ℚ) / 96
  | .floor => ((xNum.toNat / 2 : ℕ) : ℚ) / 48

/-- The normalized `y` that a consumer forms from `y_num` (rule R130). -/
def pointY (m : MidpointMode) (yNum : BitVec 8) : ℚ :=
  match m with
  | .exact => (yNum.toNat : ℚ) / 152
  | .floor => ((yNum.toNat / 2 : ℕ) : ℚ) / 76

/-- The normalized point of an output beat, which a consumer reads only when `active = 1` (rules R130, R133). -/
def OutBeat.point (m : MidpointMode) (o : OutBeat) : Option (ℚ × ℚ) :=
  if o.active then some (pointX m o.xNum, pointY m o.yNum) else none

/-- The normalized point of an output beat under this block's `MIDPOINT_MODE` (rules R8, R130). -/
def OutBeat.normalizedPoint (o : OutBeat) : Option (ℚ × ℚ) := o.point Config.midpointMode

/-- ESTIMATE (rules R125, R136): no state is written; the estimate goes to the EDGE step. -/
def execEstimate (h : Horizontal) (v : Vertical) (s : State) : Result :=
  .next (s.enter (.edge (estimate h v)))

end Sys2Proof.Machine
end

