-- ==== Sys2Proof/Machine/Synchronizer.lean ====
section
/-! DEFINITION. The Frame Synchronizer (rules R80 to R92): the meanings of the three input beats and of SHIFT. -/

namespace Sys2Proof.Machine

/-- RESET (rule R87): the window filled with `INIT_FILL`, Released, every output field 0. -/
def execReset (s : State) : Result := .next (s.latch resetWindow false OutBeat.zero)

/-- IDLE (rule R81): `W` and `held` are kept, every output field is 0. -/
def execIdle (s : State) : Result := .next (s.latch s.window s.held OutBeat.zero)

/-- The whole pipeline of a `PUSH` in its one cycle (rule R82): SHIFT, VALIDATE on the shifted window (R86), and on a
frame DECODE, ESTIMATE and EDGE, all written at the clock edge. -/
def pushBeat (b : Byte) (s : State) : State :=
  let w := shiftWindow s.window b
  if validate w then
    let e := estimate (horizontalOf Config.bitOrder w) (verticalOf Config.bitOrder w)
    let r := edge s.held e.active
    s.latch w r.1 (frameBeat e r.2)
  else
    s.latch w s.held syncLossBeat

/-- PUSH (rule R82). -/
def execPush (b : Byte) (s : State) : Result := .next (pushBeat b s)

/-- SHIFT (rule R83), the first step of a `PUSH`: the window is shifted, and VALIDATE comes next (R84). -/
def execShift (b : Byte) (s : State) : Result :=
  .next ((s.setWindow (shiftWindow s.window b)).enter .validate)

end Sys2Proof.Machine
end

