-- ==== Sys2Proof/Machine/Validator.lean ====
section
/-! DEFINITION. The Frame Validator (rules R95 to R103): the meaning of VALIDATE. -/

namespace Sys2Proof.Machine

/-- VALIDATE (rule R95). It writes neither `W` nor `held` (R101). A frame goes on to DECODE; a window that is not one
ends its `PUSH` there, with the output beat of rule R92 (log entry 3). -/
def execValidate (w : Window) (s : State) : Result :=
  if validate w then .next (s.enter .decode) else .next (s.latch s.window s.held syncLossBeat)

end Sys2Proof.Machine
end

