-- ==== Sys2Proof/Machine/Dispatch.lean ====
section
/-! DEFINITION. `exec`: one arm per operation of the opcode table, each one call of its meaning. -/

namespace Sys2Proof.Machine

/-- The meaning of each operation (rule R73). -/
def exec (i : Instr) (s : State) : Host.Outcome State Fault Refusal :=
  match i with
  | .reset => Sys2Proof.Machine.execReset s
  | .idle => Sys2Proof.Machine.execIdle s
  | .push b => Sys2Proof.Machine.execPush b s
  | .shift b => Sys2Proof.Machine.execShift b s
  | .validate w => Sys2Proof.Machine.execValidate w s
  | .decode w => Sys2Proof.Machine.execDecode w s
  | .estimate h v => Sys2Proof.Machine.execEstimate h v s
  | .edgePress => Sys2Proof.Machine.execEdgePress s
  | .edgeRelease => Sys2Proof.Machine.execEdgeRelease s
  | .edgeStayReleased => Sys2Proof.Machine.execEdgeStayReleased s
  | .edgeStayHeld => Sys2Proof.Machine.execEdgeStayHeld s

end Sys2Proof.Machine
end

