-- ==== Sys2Proof/WellFormed.lean ====
section
/-! DEFINITION. Which operations the opcode table admits. The types carry every width; the one check left is DECODE's
condition column: its window must be one that VALIDATE accepts. -/

namespace Sys2Proof

/-- An operation the block can select: DECODE only on a window VALIDATE accepts (rule R110), every other operation on
every operand (rules R56, R95, R125, R145). -/
def Instr.wellFormed : Instr → Bool
  | .reset => true
  | .idle => true
  | .push _ => true
  | .shift _ => true
  | .validate _ => true
  | .decode w => Machine.validate w
  | .estimate _ _ => true
  | .edgePress => true
  | .edgeRelease => true
  | .edgeStayReleased => true
  | .edgeStayHeld => true

end Sys2Proof
end

