-- ==== Sys2Proof/Decode.lean ====
section
/-! DEFINITION. The decoder, total on every word and rejecting by name, then the encoder, both from the encodings of
rules R55 and R73; and the host's view of the decoder. -/

namespace Sys2Proof

open Machine

/-- Beat decode (rule R56): total, `rst` first, then `in_valid`; ignored bits are dropped. -/
def decodeBeat (w : Beat) : Instr :=
  if w.getLsbD 9 then .reset
  else if w.getLsbD 8 then .push (w.extractLsb' 0 8)
  else .idle

/-- SHIFT's word: the pattern `01bbbbbbbb` of the `PUSH` it is step 1 of (rule R73). -/
def decodeShift (w : Beat) : Except DecodeError Instr :=
  if w.extractLsb' 8 2 = 1#2 then .ok (.shift (w.extractLsb' 0 8)) else .error .notAPush

/-- DECODE's word: a window whose magic matches and whose checksum is equal (rule R73). -/
def decodeWindow (fw : FrameWord) : Except DecodeError Instr :=
  if validate (unpackWindow fw) then .ok (.decode (unpackWindow fw)) else .error .notAFrame

/-- The EDGE format: the 2-bit pattern with `held` as bit 1 and `active` as bit 0 (rule R73). -/
def decodeEdge (w : BitVec 2) : Instr :=
  match w.getLsbD 1, w.getLsbD 0 with
  | false, true => .edgePress
  | true, false => .edgeRelease
  | false, false => .edgeStayReleased
  | true, true => .edgeStayHeld

/-- The operation a word selects at its place (rule R73). -/
def decode : OpWord → Except DecodeError Instr
  | .beat w => .ok (decodeBeat w)
  | .shift w => decodeShift w
  | .validate fw => .ok (.validate (unpackWindow fw))
  | .decode fw => decodeWindow fw
  | .bitmaps w => .ok (.estimate (bitmapsH w) (bitmapsV w))
  | .edge w => .ok (decodeEdge w)

/-- The word of an operation, ignored bits 0 (rules R55, R57, R73). -/
def encode : Instr → OpWord
  | .reset => .beat resetWord
  | .idle => .beat idleWord
  | .push b => .beat (pushWord b)
  | .shift b => .shift (pushWord b)
  | .validate w => .validate (packWindow w)
  | .decode w => .decode (packWindow w)
  | .estimate h v => .bitmaps (packBitmaps h v)
  | .edgePress => .edge 0b01
  | .edgeRelease => .edge 0b10
  | .edgeStayReleased => .edge 0b00
  | .edgeStayHeld => .edge 0b11

/-- The word of `nbits` bits with the number `w`, by the widths of the opcode table, each also in whole bytes. A
10-bit word is read on the input pins, so `01bbbbbbbb` is a PUSH and never the SHIFT inside one; a 168-bit word is
read at the DECODE step where that step accepts it and at the VALIDATE step elsewhere (log entry 4). Bits above the
table's width must be 0. -/
def tableWord (nbits w : Nat) : Option OpWord :=
  if (nbits = 10 ∨ nbits = 16) ∧ w < 2 ^ 10 then some (.beat (BitVec.ofNat 10 w))
  else if (nbits = 2 ∨ nbits = 8) ∧ w < 2 ^ 2 then some (.edge (BitVec.ofNat 2 w))
  else if (nbits = 124 ∨ nbits = 128) ∧ w < 2 ^ 124 then some (.bitmaps (BitVec.ofNat 124 w))
  else if nbits = 168 ∧ w < 2 ^ 168 then
    let fw := BitVec.ofNat 168 w
    if validate (unpackWindow fw) then some (.decode fw) else some (.validate fw)
  else none

/-- The operation the decoder reads from a table word; none where it refuses. -/
def decodeTableWord (nbits w : Nat) : Option Instr :=
  match tableWord nbits w with
  | some o => (decode o).toOption
  | none => none

end Sys2Proof
end

