-- ==== Sys2Proof/Machine/Fetch.lean ====
section
/-! DEFINITION. Where the next word is read, and how a beat is taken from the host. Between two cycles the word stands
on the input pins (R55); inside a `PUSH` it is the value the next operation reads (R3, R73). -/

namespace Sys2Proof.Machine

/-- The word that selects the next operation (rules R55, R73). -/
def fetch (s : State) : OpWord :=
  match s.stage with
  | .boundary => .beat s.pins
  | .shift b => .shift (pushWord b)
  | .validate => .validate (packWindow s.window)
  | .decode => .decode (packWindow s.window)
  | .estimate h v => .bitmaps (packBitmaps h v)
  | .edge e => .edge (BitVec.ofBool s.held ++ BitVec.ofBool e.active)

/-- The state the next operation runs in: a beat taken on the pins is no longer waiting; inside a `PUSH` nothing is
taken. -/
def advance (s : State) : State :=
  match s.stage with
  | .boundary => { s with input := s.input.tail }
  | .shift _ => s
  | .validate => s
  | .decode => s
  | .estimate _ _ => s
  | .edge _ => s

/-- `s` with a word standing where its operation is read: an input beat is the next beat the host drives; a WINDOW
word is the window; a BITMAPS word is the pair of arrays in flight; an EDGE word is `held` and the flag `active` in
flight. -/
def placeWord (s : State) : OpWord → State
  | .beat w => { s with input := w :: s.input, stage := .boundary }
  | .shift w => { s with stage := .shift (w.extractLsb' 0 8) }
  | .validate fw => { s with window := unpackWindow fw, stage := .validate }
  | .decode fw => { s with window := unpackWindow fw, stage := .decode }
  | .bitmaps w => { s with stage := .estimate (bitmapsH w) (bitmapsV w) }
  | .edge w =>
    { s with held := w.getLsbD 1, stage := .edge { Estimate.inactive with active := w.getLsbD 0 } }

/-- `s` with a table word placed; `s` itself where the number is no word of the table. -/
def placeTableWord (s : State) (nbits w : Nat) : State :=
  match tableWord nbits w with
  | some o => placeWord s o
  | none => s

end Sys2Proof.Machine
end

