-- ==== Sys2Proof/Machine/Step.lean ====
section
/-! DEFINITION. One step: one clock cycle from a state between two cycles (rules R12, R14), or the next internal
operation from a place inside a `PUSH`. -/

namespace Sys2Proof.Machine

/-- Fetch the word, decode it, run its operation. -/
def step (s : State) : Host.Outcome State Fault Refusal :=
  match decode (fetch s) with
  | .ok i => exec i (advance s)
  | .error e => .refused (.undecodable e)

/-- `s` with the table word placed where `step` reads its next operation. -/
def State.withFetchWord (s : State) (nbits w : Nat) : State := placeTableWord s nbits w

end Sys2Proof.Machine
end

