-- ==== Sys2Proof/Safety.lean ====
section
/-! DEFINITION. What claims speak of: the ranges of an estimate (R131), the consistent output beats (R30, R65, R66,
R153), the invariant every step keeps, the power-on state (R182), and runs with what they show (R190). -/

namespace Sys2Proof.Machine

/-- The ranges of an estimate (rules R131, R133). -/
structure Estimate.InRange (e : Estimate) : Prop where
  inactive : e.active = false → e = Estimate.inactive
  maxX_le : e.maxX.toNat ≤ 47
  maxY_le : e.maxY.toNat ≤ 75
  minX_le : e.minX.toNat ≤ e.maxX.toNat
  minY_le : e.minY.toNat ≤ e.maxY.toNat
  xNum_eq : e.xNum.toNat = e.minX.toNat + e.maxX.toNat
  yNum_eq : e.yNum.toNat = e.minY.toNat + e.maxY.toNat

/-- The output beats this block can show beside a value of the `held` port (rules R30, R65, R66, R131, R153). -/
structure OutBeat.Consistent (o : OutBeat) (held : Bool) : Prop where
  silent : o.outValid = false → o = OutBeat.zero
  notFrame : o.frameOk = false → o.outValid = true → o = syncLossBeat
  inactive : o.active = false → o.minX = 0 ∧ o.maxX = 0 ∧ o.minY = 0 ∧ o.maxY = 0 ∧ o.xNum = 0 ∧ o.yNum = 0
  maxX_le : o.maxX.toNat ≤ 47
  maxY_le : o.maxY.toNat ≤ 75
  minX_le : o.minX.toNat ≤ o.maxX.toNat
  minY_le : o.minY.toNat ≤ o.maxY.toNat
  xNum_eq : o.xNum.toNat = o.minX.toNat + o.maxX.toNat
  yNum_eq : o.yNum.toNat = o.minY.toNat + o.maxY.toNat
  notReserved : o.event ≠ 3
  press : o.event = Event.press.code → o.active = true
  release : o.event = Event.release.code → o.frameOk = true ∧ o.active = false
  level : o.frameOk = true → held = o.active

/-- What holds at a place inside a `PUSH`: DECODE is reached only with a frame in the window (R110), EDGE only with an
estimate in its ranges (R131). -/
def Stage.Legal (w : Window) : Stage → Prop
  | .boundary => True
  | .shift _ => True
  | .validate => True
  | .decode => Machine.validate w = true
  | .estimate _ _ => True
  | .edge e => e.InRange

/-- The invariant every step keeps. -/
structure State.Inv (s : State) : Prop where
  out : s.out.Consistent s.held
  stage : s.stage.Legal s.window

/-- The block before its first `RESET` (rule R182): nothing is known of `W`, `held` and `O`, which are the free values
of Config. -/
def State.powerOn : State :=
  { window := Config.powerOnWindow, held := Config.powerOnHeld, out := OutBeat.unpack Config.powerOnOut, input := [],
    stage := .boundary }

/-- The window is a frame, by the words of rules R95, R96 and R98: the three magic bytes, and the exact sum of the
two constants and the 17 payload bytes, mod 256, equal to the last byte. -/
def IsFrame (w : Window) : Prop :=
  w[0] = 0x55 ∧ w[1] = 0x54 ∧ w[2] = 0x4C ∧
    (0xFF + (∑ j : Fin 17, (w[3 + j.val]).toNat) + 0xA0) % 256 = (w[20]).toNat

/-- Horizontal position `x` is set in the window's wire bits (rule R112). -/
def HTouched (w : Window) (x : Nat) : Prop := ∃ _ : x < 48, (w[14 + x / 8]).getLsbD (x % 8) = true

/-- Vertical array index `y` is set in the window's wire bits (rule R111). -/
def VTouched (w : Window) (y : Nat) : Prop := ∃ _ : y < 76, (w[3 + (75 - y) / 8]).getLsbD ((75 - y) % 8) = true

/-- The beat is a RESET: `rst = 1` (rule R55). -/
def isResetBeat (w : Beat) : Bool := w.getLsbD 9

/-- The byte a beat pushes, if it is a `PUSH` (rule R55). -/
def pushedByte (w : Beat) : Option Byte :=
  if w.getLsbD 9 then none else if w.getLsbD 8 then some (w.extractLsb' 0 8) else none

/-- The bytes a list of beats pushes, in order (rule R41). -/
def pushedBytes (ws : List Beat) : List Byte := ws.filterMap pushedByte

/-- The next `k` cycles bring no RESET. -/
def NoReset (k : Nat) (s : State) : Prop := ∀ w ∈ s.input.take k, isResetBeat w = false

/-- The bytes pushed in the next `k` cycles. -/
def nextBytes (k : Nat) (s : State) : List Byte := pushedBytes (s.input.take k)

/-- `k` steps; it stops at the first step that does not answer a next state. -/
def runSteps : Nat → State → Result
  | 0, s => .next s
  | k + 1, s =>
    match step s with
    | .next t => runSteps k t
    | .fault f => .fault f
    | .refused r => .refused r

/-- The output beats that `k` steps leave, in order (rules R51, R190). -/
def outputs : Nat → State → List OutBeat
  | 0, _ => []
  | k + 1, s =>
    match step s with
    | .next t => t.out :: outputs k t
    | .fault _ => []
    | .refused _ => []

/-- What a run shows (rule R190): its output beats with `out_valid = 1`, in order, and the final `W` and `held`. -/
structure Observation where
  beats : List OutBeat
  window : Window
  held : Bool
deriving DecidableEq, Repr

/-- What `k` steps from `s` show, if each of them answers a next state. -/
def observe (k : Nat) (s : State) : Option Observation :=
  match runSteps k s with
  | .next t => some { beats := (outputs k s).filter OutBeat.outValid, window := t.window, held := t.held }
  | .fault _ => none
  | .refused _ => none

/-- A run (rule R190): a finite sequence of beats applied from the reset state, one per step. It ends where its beats
end. -/
def run (ws : List Beat) : Result := runSteps ws.length { State.reset with input := ws }

/-- The observation of a run (rule R190). -/
def observation (ws : List Beat) : Option Observation := observe ws.length { State.reset with input := ws }

/-- How many of the beats report an event (rule R152). -/
def countEvent (e : Event) (os : List OutBeat) : Nat := os.countP fun o => o.event == e.code

/-- Press and Release in the order reported (rule R151); a beat without one reports nothing. -/
def reportedEvents (os : List OutBeat) : List Event :=
  os.filterMap fun o =>
    match Event.ofCode o.event with
    | some .press => some .press
    | some .release => some .release
    | some .none => none
    | none => none

/-- The events alternate, beginning with PRESS from Released and with RELEASE from Held (rule R151). -/
def Alternates : Bool → List Event → Prop
  | _, [] => True
  | held, e :: es => e = (if held then .release else .press) ∧ Alternates (!held) es

end Sys2Proof.Machine
end

