-- ==== Sys2Proof/Certificates/Slice0/Obligations.lean ====
section
/-! DEFINITION. The statements for the provers. -/

open Sys2Proof Sys2Proof.Machine

/-! ### Encodings -/

/-- R55: `rst` selects RESET whatever the other bits are, `00` IDLE whatever the byte is, and `01` PUSH with the byte
of bits 7 to 0. -/
def Obligations.BeatDecodeByPattern : Prop :=
  ∀ w : Beat,
    (w.getLsbD 9 = true → decode (.beat w) = .ok .reset) ∧
    (w.getLsbD 9 = false → w.getLsbD 8 = false → decode (.beat w) = .ok .idle) ∧
    (w.getLsbD 9 = false → w.getLsbD 8 = true → decode (.beat w) = .ok (.push (w.extractLsb' 0 8)))

/-- R56, which the spec derives from R55: 512 of the 1024 patterns are RESET, 256 are IDLE, and each byte value has
exactly one PUSH pattern. -/
def Obligations.BeatPatternCounts : Prop :=
  Nat.card {w : Beat // decodeBeat w = .reset} = 512 ∧
  Nat.card {w : Beat // decodeBeat w = .idle} = 256 ∧
  ∀ b : Byte, ∃! w : Beat, decode (.beat w) = .ok (.push b)

/-- R55, R57, R73: decoding the word of a well-formed operation gives the operation back, with every operand. The
place of the two arrays in a BITMAPS word is the model's choice (log entry 5). -/
def Obligations.DecodeOfEncode : Prop :=
  ∀ i : Instr, i.wellFormed = true → decode (encode i) = .ok i

/-- R55, R57, R73: whatever a word decodes to is well formed and of the word's format, and encoding it gives the word
back, but for the bits that rule R55 says RESET and IDLE ignore. -/
def Obligations.EncodeOfDecode : Prop :=
  ∀ (o : OpWord) (i : Instr), decode o = .ok i →
    i.wellFormed = true ∧ i.format = o.format ∧
    ((∀ w : Beat, o = .beat w → w.getLsbD 9 = false ∧ w.getLsbD 8 = true) → encode i = o)

/-- Words written out from R55 and R73 decode to their operations. -/
def Obligations.SpecWordsDecode : Prop :=
  decode (.beat 0b1000000000) = .ok .reset ∧
  decode (.beat 0b1101010101) = .ok .reset ∧
  decode (.beat 0b0010101010) = .ok .idle ∧
  decode (.beat 0b0101010100) = .ok (.push 0x54) ∧
  decode (.shift 0b0111000001) = .ok (.shift 0xC1) ∧
  decode (.edge 0b01) = .ok .edgePress ∧
  decode (.edge 0b10) = .ok .edgeRelease ∧
  decode (.edge 0b00) = .ok .edgeStayReleased ∧
  decode (.edge 0b11) = .ok .edgeStayHeld

/-- R65: the packed output beat holds each field at its bits, and nothing else. -/
def Obligations.OutBeatPackUnpack : Prop :=
  (∀ o : OutBeat, OutBeat.unpack o.pack = o) ∧ (∀ w : BitVec 46, (OutBeat.unpack w).pack = w)

/-! ### Steps -/

/-- Where the word at the fetch place decodes to `i`, `step` is `exec i`; between two cycles the word is the beat on
the pins and that beat is taken, inside a `PUSH` nothing is taken (the two places are the model's, log entries 1, 2). -/
def Obligations.StepRunsDecoded : Prop :=
  (∀ (s : State) (i : Instr), decode (fetch s) = .ok i → step s = exec i (advance s)) ∧
  (∀ s : State, s.stage = .boundary → fetch s = .beat s.pins ∧ advance s = { s with input := s.input.tail }) ∧
  (∀ s : State, s.stage ≠ .boundary → advance s = s)

/-- R3, R73: inside a `PUSH`, `step` runs the internal operation of the place, on the operands rule R69 gives it: the
byte, the window, the arrays, or the EDGE row that `held` and `active` select. The places are the model's (log
entry 2). -/
def Obligations.StepInsidePushRunsRow : Prop :=
  ∀ s : State,
    (∀ b, s.stage = .shift b → step s = exec (.shift b) s) ∧
    (s.stage = .validate → step s = exec (.validate s.window) s) ∧
    (s.stage = .decode → IsFrame s.window → step s = exec (.decode s.window) s) ∧
    (s.stage = .decode → ¬ IsFrame s.window → step s = .refused (.undecodable .notAFrame)) ∧
    (∀ h v, s.stage = .estimate h v → step s = exec (.estimate h v) s) ∧
    (∀ e, s.stage = .edge e →
      (s.held = false → e.active = true → step s = exec .edgePress s) ∧
      (s.held = true → e.active = false → step s = exec .edgeRelease s) ∧
      (s.held = false → e.active = false → step s = exec .edgeStayReleased s) ∧
      (s.held = true → e.active = true → step s = exec .edgeStayHeld s))

/-- A table word placed where `step` fetches runs as its operation at once (the placing is the model's, log entries 4
and 7). -/
def Obligations.PlacedTableWordRuns : Prop :=
  ∀ (s : State) (nbits w : Nat) (i : Instr), decodeTableWord nbits w = some i →
    step (s.withFetchWord nbits w) = exec i (advance (s.withFetchWord nbits w))

/-- R48, R53, R160, R162: from a state between two cycles every step completes, takes exactly one beat, and ends
between two cycles: no beat faults, hangs, or is seen half done. -/
def Obligations.EveryBeatCompletes : Prop :=
  ∀ s : State, s.stage = .boundary →
    ∃ t, step s = .next t ∧ t.stage = .boundary ∧ t.input = s.input.tail

/-- R160, R162: no state of the invariant stops, inside a `PUSH` or between two cycles. -/
def Obligations.InvariantStatesNeverStop : Prop :=
  ∀ s : State, s.Inv → ∃ t, step s = .next t

/-- The state after reset has the invariant. -/
def Obligations.ResetHasInvariant : Prop := State.reset.Inv

/-- R30, R65, R66, R131, R153: every step keeps the invariant: the output register stays consistent, its ranges hold,
the reserved event code never appears, and after a frame `held` is its `active`. -/
def Obligations.StepKeepsInvariant : Prop :=
  ∀ s t : State, s.Inv → step s = .next t → t.Inv

/-- R30: whatever `O` held before, the output beat of a cycle is written whole by that cycle: it is consistent,
`out_valid` says that the beat was a `PUSH`, and `frame_ok` says that the window after the shift is a frame. -/
def Obligations.EveryBeatWritesOutput : Prop :=
  ∀ s t : State, s.stage = .boundary → step s = .next t →
    t.out.Consistent t.held ∧
    (t.out.outValid = true ↔ (pushedByte s.pins).isSome = true) ∧
    (t.out.frameOk = true ↔ (pushedByte s.pins).isSome = true ∧ IsFrame t.window) ∧
    t.out.pack.extractLsb' 3 2 ≠ 0b11

/-- R20, R30: no cycle reads `O`. -/
def Obligations.NoBeatReadsOutput : Prop :=
  ∀ (s : State) (o : OutBeat), s.stage = .boundary → step { s with out := o } = step s

/-- R55, R56: the bits a RESET or IDLE beat ignores change nothing. -/
def Obligations.IgnoredPinsChangeNothing : Prop :=
  ∀ (s : State) (w w' : Beat) (rest : List Beat),
    (w.getLsbD 9 = true ∧ w'.getLsbD 9 = true ∨
      (w.getLsbD 9 = false ∧ w.getLsbD 8 = false) ∧ (w'.getLsbD 9 = false ∧ w'.getLsbD 8 = false)) →
    step { s with input := w :: rest, stage := .boundary } = step { s with input := w' :: rest, stage := .boundary }

/-! ### Beats: RESET, IDLE, PUSH, SHIFT -/

/-- R87, R180: RESET fills the window with 0x00, clears `held` and every output field, and reports no event.
That it ends between two cycles also from a place inside a `PUSH` is the model's (log entry 10). -/
def Obligations.ResetClears : Prop :=
  ∀ s : State,
    exec .reset s = .next
      { s with
        window := Vector.replicate 21 0x00
        held := false
        out := { outValid := false, frameOk := false, active := false, event := 0, minX := 0, maxX := 0, minY := 0,
                 maxY := 0, xNum := 0, yNum := 0 }
        stage := .boundary } ∧
    exec .reset s = .next { State.reset with input := s.input }

/-- R56, R87, R164: with `rst = 1` the cycle is a RESET whatever `in_valid` and `in_byte` are: the byte is dropped, and
the machine is in the state of rule R180 with the later beats still to come. -/
def Obligations.ResetWinsOverByte : Prop :=
  ∀ s : State, s.stage = .boundary → s.pins.getLsbD 9 = true →
    step s = .next { State.reset with input := s.input.tail }

/-- R182: a RESET brings the block from its power-on state, of which nothing is known, to the reset state; and a block
that was not reset first can report a frame at its first push, with a RELEASE as its first event. -/
def Obligations.PowerOnNeedsReset : Prop :=
  (∀ (w : Beat) (rest : List Beat), w.getLsbD 9 = true →
    step { State.powerOn with input := w :: rest } = .next { State.reset with input := rest }) ∧
  ∃ (s t : State) (b : Byte), s.stage = .boundary ∧ s.input = [pushWord b] ∧ step s = .next t ∧
    t.out.frameOk = true ∧ t.out.event = Event.release.code

/-- R81, R171: IDLE keeps `W` and `held` and clears the output register.
That it ends between two cycles also from a place inside a `PUSH` is the model's (log entry 10). -/
def Obligations.IdleKeepsState : Prop :=
  ∀ s : State,
    exec .idle s = .next
      { s with
        out := { outValid := false, frameOk := false, active := false, event := 0, minX := 0, maxX := 0, minY := 0,
                 maxY := 0, xNum := 0, yNum := 0 }
        stage := .boundary }

/-- R81, R171: any number of IDLE cycles in a row leaves `W` and `held` as they are. -/
def Obligations.IdleRunKeepsState : Prop :=
  ∀ (k : Nat) (s : State), s.stage = .boundary →
    (∀ w ∈ s.input.take (k + 1), w.getLsbD 9 = false ∧ w.getLsbD 8 = false) →
    runSteps (k + 1) s = .next { s with out := OutBeat.zero, input := s.input.drop (k + 1) }

/-- R83: SHIFT drops the oldest byte and appends `b`, and writes nothing else; after 21 shifts the window holds the 21
bytes pushed, whatever it held before. -/
def Obligations.ShiftMovesWindow : Prop :=
  (∀ (s : State) (b : Byte), ∃ t, exec (.shift b) s = .next t ∧
    (∀ (i : Nat) (_ : i < 20), t.window[i] = s.window[i + 1]) ∧ t.window[20] = b ∧
    t.held = s.held ∧ t.out = s.out) ∧
  ∀ (w : Window) (bs : List Byte), bs.length = 21 → (bs.foldl shiftWindow w).toList = bs

/-- R3, R73: each internal operation changes only what its rule says and hands its result to the next operation of the
`PUSH`; a VALIDATE that answers 0 ends the `PUSH` with the beat of rule R92. The places, and where the results stand
between two operations, are the model's (log entries 2 and 3), and so is the DECODE of a window that is not a frame,
which rule R110 says is never decoded (log entry 9). -/
def Obligations.InternalOperationsHandOn : Prop :=
  ∀ s : State,
    (∀ b, exec (.shift b) s = .next { s with window := shiftWindow s.window b, stage := .validate }) ∧
    (∀ w, IsFrame w → exec (.validate w) s = .next { s with stage := .decode }) ∧
    (∀ w, ¬ IsFrame w → exec (.validate w) s = .next
      { s with
        out := { outValid := true, frameOk := false, active := false, event := 0, minX := 0, maxX := 0, minY := 0,
                 maxY := 0, xNum := 0, yNum := 0 }
        stage := .boundary }) ∧
    (∀ w, exec (.decode w) s = .next
      { s with stage := .estimate (horizontalOf Config.bitOrder w) (verticalOf Config.bitOrder w) }) ∧
    (∀ h v, exec (.estimate h v) s = .next { s with stage := .edge (estimate h v) })

/-- R84, R86: every `PUSH` validates, once, the window after the shift, whose last byte is the byte just pushed, and
reports the answer in `frame_ok`. -/
def Obligations.PushValidatesShiftedWindow : Prop :=
  ∀ (s : State) (b : Byte), ∃ t, exec (.push b) s = .next t ∧
    t.window = shiftWindow s.window b ∧ t.window[20] = b ∧ t.out.outValid = true ∧
    (t.out.frameOk = true ↔ IsFrame t.window)

/-- R92: a `PUSH` whose window is not a frame changes only `W`, and reports `frame_ok = 0` with no other field set.
That it ends between two cycles also from a place inside a `PUSH` is the model's (log entry 10). -/
def Obligations.PushOfNonFrame : Prop :=
  ∀ (s : State) (b : Byte), ¬ IsFrame (shiftWindow s.window b) →
    exec (.push b) s = .next
      { s with
        window := shiftWindow s.window b
        out := { outValid := true, frameOk := false, active := false, event := 0, minX := 0, maxX := 0, minY := 0,
                 maxY := 0, xNum := 0, yNum := 0 }
        stage := .boundary }

/-- R82, R86, R111, R112, R129, R131, R133, R153: a `PUSH` that completes a frame reports, in one cycle, the bounding
box of the touched positions read from the wire bits of the shifted window, their sums, `active`, and the edge event
from the old `held`; `held` becomes `active`. That it ends between two cycles also from a place inside a `PUSH` is the
model's (log entry 10). -/
def Obligations.PushOfFrameReportsTouch : Prop :=
  ∀ (s : State) (b : Byte) (w : Window), w = shiftWindow s.window b → IsFrame w →
    ∃ t, exec (.push b) s = .next t ∧ t.window = w ∧ t.input = s.input ∧ t.stage = .boundary ∧
      t.out.outValid = true ∧ t.out.frameOk = true ∧
      (t.out.active = true ↔ (∃ x, HTouched w x) ∧ ∃ y, VTouched w y) ∧
      t.held = t.out.active ∧
      t.out.event = (if t.out.active = true ∧ s.held = false then 0b01
        else if t.out.active = false ∧ s.held = true then 0b10 else 0b00) ∧
      (t.out.active = true →
        IsLeast {x | HTouched w x} t.out.minX.toNat ∧ IsGreatest {x | HTouched w x} t.out.maxX.toNat ∧
        IsLeast {y | VTouched w y} t.out.minY.toNat ∧ IsGreatest {y | VTouched w y} t.out.maxY.toNat) ∧
      t.out.xNum.toNat = t.out.minX.toNat + t.out.maxX.toNat ∧
      t.out.yNum.toNat = t.out.minY.toNat + t.out.maxY.toNat ∧
      (t.out.active = false → t.out.minX = 0 ∧ t.out.maxX = 0 ∧ t.out.minY = 0 ∧ t.out.maxY = 0)

/-- R3, R82: one `PUSH` in one cycle is the internal operations run one by one in the order of rule R3: SHIFT and
VALIDATE, and on a frame DECODE, ESTIMATE and one EDGE operation. The one-by-one run is the model's (log entries 2
and 3). -/
def Obligations.PushIsItsInternalOperations : Prop :=
  ∀ (s : State) (b : Byte),
    (IsFrame (shiftWindow s.window b) → runSteps 5 { s with stage := .shift b } = exec (.push b) s) ∧
    (¬ IsFrame (shiftWindow s.window b) → runSteps 2 { s with stage := .shift b } = exec (.push b) s)

/-- R32, which the spec derives from R20, R30 and R31: two blocks whose windows both fail validation show the same ports. -/
def Obligations.FailedWindowsLookAlike : Prop :=
  ∀ (s s' : State) (b b' : Byte), s.held = s'.held →
    ¬ IsFrame (shiftWindow s.window b) → ¬ IsFrame (shiftWindow s'.window b') →
    ∃ t t', exec (.push b) s = .next t ∧ exec (.push b') s' = .next t' ∧ t.ports = t'.ports

/-! ### Streams -/

/-- R85, which the spec derives from R83 and R84, with R21 and R41: over any cycles without a RESET the window is the last 21 bytes of the old window followed
by the bytes pushed, whatever was validated on the way. -/
def Obligations.WindowIsLastBytes : Prop :=
  ∀ (k : Nat) (s : State), s.stage = .boundary → NoReset k s →
    ∃ t, runSteps k s = .next t ∧
      t.window.toList = (s.window.toList ++ nextBytes k s).drop (nextBytes k s).length

/-- R88, which the spec derives from R83, R87 and R96: after a reset the first 20 pushes report no frame, and push 21 can. -/
def Obligations.NoFrameBeforePush21 : Prop :=
  (∀ (k : Nat) (s : State), s.stage = .boundary → s.window = resetWindow → NoReset k s →
    (nextBytes k s).length ≤ 20 → ∀ o ∈ outputs k s, o.frameOk = false) ∧
  ∃ F : Window, ∃ o ∈ outputs 21 { State.reset with input := windowBeats F }, o.frameOk = true

/-- R89, which the spec derives from R83 and R85: a whole frame pushed from any state, with any IDLE cycles between its bytes and no RESET, is reported at its
last byte with its own decode. -/
def Obligations.Resynchronization : Prop :=
  ∀ (F : Window) (ws rest : List Beat) (s : State), IsFrame F → s.stage = .boundary → s.input = ws ++ rest →
    (∀ w ∈ ws, isResetBeat w = false) → pushedBytes ws = F.toList → ws.getLast? = some (pushWord F[20]) →
    ∃ t, runSteps ws.length s = .next t ∧ t.window = F ∧ t.input = rest ∧ t.stage = .boundary ∧
      t.out.outValid = true ∧ t.out.frameOk = true ∧
      ∃ ev, t.out = frameBeat (estimate (horizontalOf Config.bitOrder F) (verticalOf Config.bitOrder F)) ev

/-- R91, which the spec derives from R83 and R58: with no RESET between, two pushes that report a frame are at least 3 pushes apart, and 3 is reached. -/
def Obligations.FramesAtLeastThreePushesApart : Prop :=
  (∀ (k : Nat) (s : State), s.stage = .boundary → IsFrame s.window → NoReset k s →
    (nextBytes k s).length ≤ 2 → ∀ o ∈ outputs k s, o.frameOk = false) ∧
  ∃ (w : Window) (b c d : Byte), IsFrame w ∧ IsFrame (shiftWindow (shiftWindow (shiftWindow w b) c) d)

/-- R151, which the spec derives from R146 to R149: with no RESET between, Press and Release alternate, and from Released the first event is PRESS. -/
def Obligations.EventsAlternate : Prop :=
  ∀ (k : Nat) (s : State), s.stage = .boundary → NoReset k s →
    Alternates s.held (reportedEvents (outputs k s))

/-- R152, which the spec derives from R151: counted from a Released state, `held` is 1 exactly when the PRESS events exceed the RELEASE events, and the
difference is always 0 or 1. -/
def Obligations.HeldCountsEvents : Prop :=
  ∀ (k : Nat) (s : State), s.stage = .boundary → s.held = false → NoReset k s →
    ∃ t, runSteps k s = .next t ∧
      (t.held = true ↔ countEvent .release (outputs k s) < countEvent .press (outputs k s)) ∧
      countEvent .release (outputs k s) ≤ countEvent .press (outputs k s) ∧
      countEvent .press (outputs k s) ≤ countEvent .release (outputs k s) + 1

/-! ### VALIDATE -/

/-- R96, R98, R100: VALIDATE answers 1 exactly where the three magic bytes are there and the checksum equals the last
byte; the checksum is the exact sum, at most 4750, reduced mod 256. -/
def Obligations.ValidateIsMagicAndChecksum : Prop :=
  (∀ w : Window, validate w = true ↔
    w[0] = 0x55 ∧ w[1] = 0x54 ∧ w[2] = 0x4C ∧ checksum (payloadOf w) = w[20]) ∧
  (∀ (w : Window) (j : Nat) (_ : j < 17), (payloadOf w)[j] = w[3 + j]) ∧
  (∀ p : Payload,
    (checksum p).toNat = (0xFF + (∑ j : Fin 17, (p[j.val]).toNat) + 0xA0) % 256 ∧
    0xFF + (∑ j : Fin 17, (p[j.val]).toNat) + 0xA0 ≤ 4750) ∧
  checksum (Vector.replicate 17 0) = 0x9F

/-- R99, which the spec derives from R98: the equal forms of the checksum: one addition of 0x9F, or 8-bit accumulators that wrap, in any order. -/
def Obligations.ChecksumForms : Prop :=
  ∀ p : Payload,
    checksum p = BitVec.ofNat 8 ((∑ j : Fin 17, (p[j.val]).toNat) + 0x9F) ∧
    (∀ q : List Byte, q.Perm p.toList → q.foldl (· + ·) 0x9F = checksum p) ∧
    (∀ q : List Byte, q.Perm (0xA0 :: p.toList) → q.foldl (· + ·) 0xFF = checksum p)

/-- R102, which the spec derives from R98: two payloads have the same checksum exactly when their byte sums agree mod 256; so reordering passes, and
the payloads of the rule's example agree in the checksum and decode to different touches. -/
def Obligations.ChecksumSeesOnlySum : Prop :=
  (∀ p q : Payload, checksum p = checksum q ↔
    (∑ j : Fin 17, (p[j.val]).toNat) % 256 = (∑ j : Fin 17, (q[j.val]).toNat) % 256) ∧
  (∀ p q : Payload, p.toList.Perm q.toList → checksum p = checksum q) ∧
  ∃ p q : Payload, p.toList.Perm q.toList ∧ checksum p = 0xA0 ∧
    VTouched (goodFrame p) 75 ∧ ¬ VTouched (goodFrame p) 67 ∧ VTouched (goodFrame q) 67 ∧ ¬ VTouched (goodFrame q) 75

/-- R64, which the spec derives from R95: every window is in exactly one of the three classes, each as the rule defines it. -/
def Obligations.WindowClasses : Prop :=
  ∀ w : Window,
    (classify w = .frame ↔ IsFrame w) ∧
    (classify w = .badMagic ↔ ¬ (w[0] = 0x55 ∧ w[1] = 0x54 ∧ w[2] = 0x4C)) ∧
    (classify w = .badChecksum ↔ (w[0] = 0x55 ∧ w[1] = 0x54 ∧ w[2] = 0x4C) ∧ ¬ IsFrame w) ∧
    (validate w = true ↔ classify w = .frame)

/-- R64, which the spec derives from R95: exactly 2^136 windows are frames. -/
def Obligations.FrameCount : Prop :=
  Nat.card {w : Window // validate w = true} = 2 ^ 136

/-! ### DECODE -/

/-- R111, R112: the two arrays of DECODE, bit by bit: vertical index-reversed from offset 3, by either reading of the
rule, and horizontal in natural order from offset 14. -/
def Obligations.DecodeReadsAxisBits : Prop :=
  ∀ w : Window,
    (∀ (k : Nat) (_ : k < 76),
      (verticalOf Config.bitOrder w)[k] = (w[3 + (75 - k) / 8]).getLsbD ((75 - k) % 8)) ∧
    (∀ (y : Nat) (_ : y < 76),
      (verticalOf Config.bitOrder w)[75 - y] = (w[3 + y / 8]).getLsbD (y % 8)) ∧
    (∀ (x : Nat) (_ : x < 48), (horizontalOf Config.bitOrder w)[x] = (w[14 + x / 8]).getLsbD (x % 8))

/-- R115 and R63, which the spec derives from the maps R111 and R112: bits 7 to 4 of `W[12]` and all of `W[13]` reach no entry of either array. -/
def Obligations.UnusedBitsAreIgnored : Prop :=
  ∀ w w' : Window,
    (∀ (i : Nat) (_ : i < 21), i ≠ 12 → i ≠ 13 → w[i] = w'[i]) →
    (∀ k : Nat, k < 4 → (w[12]).getLsbD k = (w'[12]).getLsbD k) →
    horizontalOf Config.bitOrder w = horizontalOf Config.bitOrder w' ∧
    verticalOf Config.bitOrder w = verticalOf Config.bitOrder w'

/-- R71, which the spec derives from R61 and R62: the frame of TOUCH is a frame, its 12 unused bits are 0, and DECODE gives both arrays back. -/
def Obligations.TouchFrameDecodesBack : Prop :=
  ∀ (h : Horizontal) (v : Vertical),
    IsFrame (touchFrame h v) ∧
    (touchFrame h v)[13] = 0 ∧ (∀ k : Nat, 4 ≤ k → ((touchFrame h v)[12]).getLsbD k = false) ∧
    horizontalOf Config.bitOrder (touchFrame h v) = h ∧ verticalOf Config.bitOrder (touchFrame h v) = v

/-- R8 (the spec's decision D4): under the alternative `BIT_ORDER` of MSB0 every byte is read mirrored, and nothing else differs. -/
def Obligations.MsbOrderMirrorsBytes : Prop :=
  ∀ w : Window,
    horizontalOf .msb0 w = horizontalOf .lsb0 (w.map BitVec.reverse) ∧
    verticalOf .msb0 w = verticalOf .lsb0 (w.map BitVec.reverse)

/-! ### ESTIMATE -/

/-- R129, which the spec derives from R126 and R128: the pair scan equals the closed form: `active` when both axes have a set entry, and then the least and
greatest set index of each axis. It changes nothing else; an EDGE operation comes next. -/
def Obligations.EstimateIsPerAxisBox : Prop :=
  ∀ (s : State) (h : Horizontal) (v : Vertical), ∃ e,
    exec (.estimate h v) s = .next { s with stage := .edge e } ∧
    (e.active = true ↔ (∃ x : Fin 48, h[x.val] = true) ∧ ∃ y : Fin 76, v[y.val] = true) ∧
    (e.active = true →
      IsLeast {n | ∃ x : Fin 48, h[x.val] = true ∧ x.val = n} e.minX.toNat ∧
      IsGreatest {n | ∃ x : Fin 48, h[x.val] = true ∧ x.val = n} e.maxX.toNat ∧
      IsLeast {n | ∃ y : Fin 76, v[y.val] = true ∧ y.val = n} e.minY.toNat ∧
      IsGreatest {n | ∃ y : Fin 76, v[y.val] = true ∧ y.val = n} e.maxY.toNat)

/-- R127, R128: `active` when some pair has both entries set, and then the minima and maxima over those pairs. -/
def Obligations.EstimateIsPairBox : Prop :=
  ∀ (h : Horizontal) (v : Vertical) (P : Set (Fin 48 × Fin 76)), P = {p | h[p.1.val] = true ∧ v[p.2.val] = true} →
    ((estimate h v).active = true ↔ P.Nonempty) ∧
    (P.Nonempty →
      IsLeast ((fun p => p.1.val) '' P) (estimate h v).minX.toNat ∧
      IsGreatest ((fun p => p.1.val) '' P) (estimate h v).maxX.toNat ∧
      IsLeast ((fun p => p.2.val) '' P) (estimate h v).minY.toNat ∧
      IsGreatest ((fun p => p.2.val) '' P) (estimate h v).maxY.toNat)

/-- R135, which the spec derives from R128: the pairs may be visited in any order, and any number of times each. -/
def Obligations.ScanOrderIsFree : Prop :=
  ∀ (h : Horizontal) (v : Vertical) (ps : List (Fin 48 × Fin 76)), (∀ p, p ∈ ps) →
    ps.foldl (fun b p => scanPair h v b p.1 p.2) none = scanPairs h v

/-- R131, which the spec derives from R128, with R133 (the spec's decision D8) for `active = 0`: the ranges of the output fields, and the sums exact in their fields. -/
def Obligations.EstimateRanges : Prop :=
  ∀ (h : Horizontal) (v : Vertical) (e : Estimate), e = estimate h v →
    e.minX.toNat ≤ e.maxX.toNat ∧ e.maxX.toNat ≤ 47 ∧ e.minY.toNat ≤ e.maxY.toNat ∧ e.maxY.toNat ≤ 75 ∧
    e.xNum.toNat = e.minX.toNat + e.maxX.toNat ∧ e.yNum.toNat = e.minY.toNat + e.maxY.toNat ∧
    (e.active = false → e.minX = 0 ∧ e.maxX = 0 ∧ e.minY = 0 ∧ e.maxY = 0 ∧ e.xNum = 0 ∧ e.yNum = 0)

/-- R134, which the spec derives from R129: two touches on different rows and columns give the box of all four crossings, ghosts included. -/
def Obligations.GhostsAreKept : Prop :=
  ∀ (x₁ x₂ : Fin 48) (y₁ y₂ : Fin 76) (e : Estimate),
    e = estimate (Vector.ofFn fun x => decide (x = x₁ ∨ x = x₂)) (Vector.ofFn fun y => decide (y = y₁ ∨ y = y₂)) →
    e.active = true ∧ e.minX.toNat = min x₁.val x₂.val ∧ e.maxX.toNat = max x₁.val x₂.val ∧
    e.minY.toNat = min y₁.val y₂.val ∧ e.maxY.toNat = max y₁.val y₂.val ∧
    e.xNum.toNat = x₁.val + x₂.val ∧ e.yNum.toNat = y₁.val + y₂.val

/-- R132, which the spec derives from R130 and R131: the normalized point of a touch, with `MIDPOINT_MODE = EXACT`: its values, its range, and where it is 0. -/
def Obligations.PointRange : Prop :=
  ∀ (h : Horizontal) (v : Vertical) (ev : Event) (e : Estimate), e = estimate h v → e.active = true →
    ∃ x y : ℚ, (frameBeat e ev).point .exact = some (x, y) ∧
      (∃ n : ℕ, n ≤ 94 ∧ x = n / 96) ∧ (∃ n : ℕ, n ≤ 150 ∧ y = n / 152) ∧
      0 ≤ x ∧ x ≤ 47 / 48 ∧ 0 ≤ y ∧ y ≤ 75 / 76 ∧
      (x = 0 → e.minX = 0 ∧ e.maxX = 0) ∧ (y = 0 → e.minY = 0 ∧ e.maxY = 0)

/-- R130 (the spec's decision D10): the two midpoint modes give the same coordinate exactly when the sum is even, and this block's point is the
exact one. -/
def Obligations.MidpointModesDifferOnOddSums : Prop :=
  (∀ n : BitVec 7, pointX .exact n = pointX .floor n ↔ n.toNat % 2 = 0) ∧
  (∀ n : BitVec 8, pointY .exact n = pointY .floor n ↔ n.toNat % 2 = 0) ∧
  ∀ o : OutBeat, o.active = true →
    o.normalizedPoint = some ((o.xNum.toNat : ℚ) / 96, (o.yNum.toNat : ℚ) / 152)

/-! ### EDGE -/

/-- R146, R147, R148, R149: each row is selected by its pattern of `held` and `active`, and writes `held` and the event
as its rule says; the window is not written. That a row writes the same where its pattern does not hold is the model's
(log entry 8). -/
def Obligations.EdgeRowsWriteHeldAndEvent : Prop :=
  decode (.edge 0b01) = .ok .edgePress ∧ decode (.edge 0b10) = .ok .edgeRelease ∧
  decode (.edge 0b00) = .ok .edgeStayReleased ∧ decode (.edge 0b11) = .ok .edgeStayHeld ∧
  ∀ s : State,
    (∃ t, exec .edgePress s = .next t ∧ t.held = true ∧ t.out.event = 0b01 ∧ t.window = s.window) ∧
    (∃ t, exec .edgeRelease s = .next t ∧ t.held = false ∧ t.out.event = 0b10 ∧ t.window = s.window) ∧
    (∃ t, exec .edgeStayReleased s = .next t ∧ t.held = false ∧ t.out.event = 0b00 ∧ t.window = s.window) ∧
    (∃ t, exec .edgeStayHeld s = .next t ∧ t.held = true ∧ t.out.event = 0b00 ∧ t.window = s.window)

/-- R82, R146 to R149: an EDGE row, run on the pattern that selects it, ends its `PUSH` with the whole output beat of
the estimate in flight, and changes nothing else. That the row ends the beat is the model's (log entry 3). -/
def Obligations.EdgeRowsEndThePush : Prop :=
  ∀ (s : State) (e : Estimate), s.stage = .edge e →
    (s.held = false → e.active = true →
      exec .edgePress s = .next
        { s with held := true, out := frameBeat e .press, stage := .boundary }) ∧
    (s.held = true → e.active = false →
      exec .edgeRelease s = .next
        { s with held := false, out := frameBeat Estimate.inactive .release, stage := .boundary }) ∧
    (s.held = false → e.active = false →
      exec .edgeStayReleased s = .next
        { s with held := false, out := frameBeat Estimate.inactive .none, stage := .boundary }) ∧
    (s.held = true → e.active = true →
      exec .edgeStayHeld s = .next
        { s with held := true, out := frameBeat e .none, stage := .boundary })

/-- R153, which the spec derives from R146 to R149: for every pattern the next `held` is `a` and the event is as stated; so after every frame `held` is its
`active`. -/
def Obligations.EdgeClosedForm : Prop :=
  (∀ (s : State) (e : Estimate), s.stage = .edge e → ∃ t, step s = .next t ∧ t.held = e.active ∧
    t.out.event = (if e.active = true ∧ s.held = false then 0b01
      else if e.active = false ∧ s.held = true then 0b10 else 0b00) ∧
    t.out.active = e.active ∧ t.window = s.window ∧ t.input = s.input) ∧
  ∀ s t : State, s.stage = .boundary → step s = .next t → t.out.frameOk = true → t.held = t.out.active

/-- R150, which the spec derives from R81 and R82: without a frame there is no event; `held` keeps its value, but for a RESET, which clears it. -/
def Obligations.NoFrameNoEvent : Prop :=
  ∀ s t : State, s.stage = .boundary → step s = .next t → t.out.frameOk = false →
    t.out.event = 0b00 ∧
    (s.pins.getLsbD 9 = false → t.held = s.held) ∧
    (s.pins.getLsbD 9 = true → t.held = false)

/-! ### Runs -/

/-- R190, R51 (the spec's decisions D20 and D6): every sequence of beats is a run that ends with its beats, none left
waiting. It is observed by as many output beats as it has PUSH beats, each with `out_valid = 1`, and by the final `W`
and `held`. The list the beats wait in is the model's (log entry 1). -/
def Obligations.RunIsObserved : Prop :=
  ∀ ws : List Beat, ∃ (t : State) (o : Observation),
    run ws = .next t ∧ t.input = [] ∧ t.stage = .boundary ∧
    observation ws = some o ∧ o.window = t.window ∧ o.held = t.held ∧
    o.beats.length = (pushedBytes ws).length ∧ ∀ b ∈ o.beats, b.outValid = true

/-- R190, R51, R20 (the spec's decisions D20 and D6): the run of no beat shows no output beat and the reset state; one
more beat acts on the final `W` and `held` alone, whatever `O` holds, and where it is a PUSH its own output beat comes
last in the observation. -/
def Obligations.ObservationGrowsByOneBeat : Prop :=
  observation [] = some { beats := [], window := Vector.replicate 21 0x00, held := false } ∧
  ∀ (ws : List Beat) (w : Beat) (o : Observation) (x : OutBeat), observation ws = some o →
    ∃ t, step { window := o.window, held := o.held, out := x, input := [w], stage := .boundary } = .next t ∧
      observation (ws ++ [w]) = some
        { beats := o.beats ++ (if (pushedByte w).isSome then [t.out] else []), window := t.window, held := t.held }

/-- R81, R171 (the spec's decision D21), R190: a run with its IDLE beats taken out is observed the same, so a frame may
be spread over any number of cycles. -/
def Obligations.IdleBeatsAreNotObserved : Prop :=
  ∀ ws : List Beat,
    observation (ws.filter fun w => isResetBeat w || (pushedByte w).isSome) = observation ws

/-- R87, R181, R190: a RESET beat in the middle of a run shows nothing itself, and what follows it is the run of the
beats that follow it. -/
def Obligations.ResetStartsTheRunAfresh : Prop :=
  ∀ (us vs : List Beat) (w : Beat), w.getLsbD 9 = true →
    ∃ o p : Observation, observation us = some o ∧ observation vs = some p ∧
      observation (us ++ w :: vs) = some { beats := o.beats ++ p.beats, window := p.window, held := p.held }
end

