-- ==== Sys2Proof/Laws/Operands.lean ====
section
/-! SUPPORT. One lemma per operand form and flag: what each says, entry by entry, so that no later proof unfolds a
packed form or a vector built by a function. -/

namespace Sys2Proof.Machine

/-- A word built bit by bit, read bit by bit. -/
theorem getLsbD_bitsOf (n : Nat) (f : Fin n → Bool) (i : Nat) (h : i < n) : (bitsOf n f).getLsbD i = f ⟨i, h⟩ := by
  rw [bitsOf, BitVec.getLsbD_cast, BitVec.getLsbD_ofBoolListLE, List.getD_eq_getElem?_getD, List.getElem?_ofFn,
    dif_pos h, Option.getD_some]

theorem unpackWindow_getElem (fw : FrameWord) (i : Nat) (h : i < 21) :
    (unpackWindow fw)[i] = fw.extractLsb' (160 - 8 * i) 8 := by
  simp [unpackWindow]

theorem payloadOf_getElem (w : Window) (j : Nat) (h : j < 17) : (payloadOf w)[j] = w[3 + j] := by
  simp only [payloadOf, Vector.getElem_ofFn, Config.payloadOff]

theorem horizontalOf_getElem (w : Window) (x : Nat) (h : x < 48) :
    (horizontalOf .lsb0 w)[x] = (w[14 + x / 8]).getLsbD (x % 8) := by
  simp only [horizontalOf, horizontalBit, Vector.getElem_ofFn, bit, Config.hOff]

theorem verticalOf_getElem (w : Window) (k : Nat) (h : k < 76) :
    (verticalOf .lsb0 w)[k] = (w[3 + (75 - k) / 8]).getLsbD ((75 - k) % 8) := by
  simp only [verticalOf, verticalBit, Vector.getElem_ofFn, bit, Config.vOff]

theorem bitmapsH_getElem (w : BitVec 124) (x : Nat) (h : x < 48) : (bitmapsH w)[x] = w.getLsbD (76 + x) := by
  simp only [bitmapsH, Vector.getElem_ofFn]

theorem bitmapsV_getElem (w : BitVec 124) (k : Nat) (h : k < 76) : (bitmapsV w)[k] = w.getLsbD k := by
  simp only [bitmapsV, Vector.getElem_ofFn]

/-- The window's packed form loses nothing (rule R57). -/
theorem unpackWindow_packWindow (w : Window) : unpackWindow (packWindow w) = w := by
  apply Vector.ext
  intro i hi
  rw [unpackWindow_getElem _ _ hi]
  apply BitVec.eq_of_getLsbD_eq
  intro j hj
  rw [BitVec.getLsbD_extractLsb', packWindow, getLsbD_bitsOf _ _ _ (by omega)]
  have h₁ : 20 - (160 - 8 * i + j) / 8 = i := by omega
  have h₂ : (160 - 8 * i + j) % 8 = j := by omega
  simp only [h₁, h₂, hj, decide_true, Bool.true_and]

/-- Every 168-bit word is the packed form of its window (rule R57). -/
theorem packWindow_unpackWindow (fw : FrameWord) : packWindow (unpackWindow fw) = fw := by
  apply BitVec.eq_of_getLsbD_eq
  intro j hj
  rw [packWindow, getLsbD_bitsOf _ _ _ hj]
  simp only [unpackWindow_getElem, BitVec.getLsbD_extractLsb']
  have h₁ : 160 - 8 * (20 - j / 8) + j % 8 = j := by omega
  have h₂ : j % 8 < 8 := by omega
  simp only [h₁, h₂, decide_true, Bool.true_and]

theorem bitmapsH_packBitmaps (h : Horizontal) (v : Vertical) : bitmapsH (packBitmaps h v) = h := by
  apply Vector.ext
  intro i hi
  rw [bitmapsH_getElem _ _ hi, packBitmaps, getLsbD_bitsOf _ _ _ (by omega),
    dif_neg (show ¬ 76 + i < 76 by omega)]
  congr 1
  exact Nat.add_sub_cancel_left 76 i

theorem bitmapsV_packBitmaps (h : Horizontal) (v : Vertical) : bitmapsV (packBitmaps h v) = v := by
  apply Vector.ext
  intro i hi
  rw [bitmapsV_getElem _ _ hi, packBitmaps, getLsbD_bitsOf _ _ _ (by omega), dif_pos hi]

theorem packBitmaps_bitmaps (w : BitVec 124) : packBitmaps (bitmapsH w) (bitmapsV w) = w := by
  apply BitVec.eq_of_getLsbD_eq
  intro j hj
  rw [packBitmaps, getLsbD_bitsOf _ _ _ hj]
  split
  · next h => exact bitmapsV_getElem _ _ h
  · next h =>
    have h : ¬ j < 76 := h
    rw [bitmapsH_getElem _ _ (by omega), show 76 + (j - 76) = j by omega]

/-- SHIFT, entry by entry (rule R83). -/
theorem shiftWindow_getElem (w : Window) (b : Byte) (i : Nat) (h : i < 21) :
    (shiftWindow w b)[i] = if h : i < 20 then w[i + 1] else b := by
  simp only [shiftWindow, Vector.getElem_ofFn]

/-- SHIFT as a list: the head is dropped, the byte appended. -/
theorem shiftWindow_toList (w : Window) (b : Byte) : (shiftWindow w b).toList = w.toList.drop 1 ++ [b] := by
  apply List.ext_getElem
  · simp
  · intro i h₁ h₂
    have hi : i < 21 := by simpa using h₁
    rw [Vector.getElem_toList, shiftWindow_getElem _ _ _ hi, List.getElem_append]
    simp only [List.length_drop, Vector.length_toList, List.getElem_drop, Vector.getElem_toList]
    split <;> simp_all [add_comm]

/-- The beat words, bit by bit (rule R55). -/
theorem pushWord_rst : ∀ b : Byte, (pushWord b).getLsbD 9 = false := by decide
theorem pushWord_valid : ∀ b : Byte, (pushWord b).getLsbD 8 = true := by decide
theorem pushWord_byte : ∀ b : Byte, (pushWord b).extractLsb' 0 8 = b := by decide
theorem pushWord_selector : ∀ b : Byte, (pushWord b).extractLsb' 8 2 = 1#2 := by decide

/-- VALIDATE with its two tests side by side (rules R96, R100). -/
theorem validate_eq_true (w : Window) :
    validate w = true ↔ magicOk w = true ∧ checksum (payloadOf w) = checksumByte w := by
  unfold validate
  split <;> simp_all

/-- EDGE in closed form (rule R153), `held` part. -/
@[simp] theorem edge_fst (held a : Bool) : (edge held a).1 = a := by
  cases held <;> cases a <;> rfl

/-- EDGE in closed form (rule R153), event part. -/
theorem edge_snd (held a : Bool) :
    (edge held a).2 = if a && !held then .press else if !a && held then .release else .none := by
  cases held <;> cases a <;> rfl

/-- One pair of the scan either counts or leaves the box. -/
theorem scanPair_eq (h : Horizontal) (v : Vertical) (b : Option Box) (x : Fin 48) (y : Fin 76) :
    scanPair h v b x y = if h[x.val] = true ∧ v[y.val] = true then some (Box.visit b x.val y.val) else b := by
  simp [scanPair]

/-- The nested loops of rule R125 as one scan over the pairs in their order. -/
theorem scanPairs_eq_foldl (h : Horizontal) (v : Vertical) :
    scanPairs h v =
      ((List.finRange 48).flatMap fun x => (List.finRange 76).map fun y => (x, y)).foldl
        (fun b p => scanPair h v b p.1 p.2) none := by
  have hrow : scanRow h v = fun b x =>
      ((List.finRange 76).map fun y => (x, y)).foldl (fun b p => scanPair h v b p.1 p.2) b := by
    funext b x
    rw [scanRow, List.foldl_map]
  rw [scanPairs, hrow, List.foldl_flatMap]

/-- The estimate is the one of the scan's box, or none. -/
theorem estimate_cases (h : Horizontal) (v : Vertical) :
    (scanPairs h v = none ∧ estimate h v = Estimate.inactive) ∨
      ∃ b, scanPairs h v = some b ∧ estimate h v = b.toEstimate := by
  unfold estimate
  cases hs : scanPairs h v with
  | none => exact .inl ⟨rfl, rfl⟩
  | some b => exact .inr ⟨b, rfl, rfl⟩

end Sys2Proof.Machine
end

