-- ==== Sys2Proof/Laws/PerInstr.lean ====
section
/-! SUPPORT. A statement about every operation, made once per constructor: its word stands in the format the opcode
table gives it. -/

namespace Sys2Proof.Laws.EncodeFormat

/-- The word of an operation has the operation's format (rule R73). -/
def Statement (i : Instr) : Prop := (encode i).format = i.format

theorem reset : Statement .reset := rfl
theorem idle : Statement .idle := rfl
theorem push (b : Byte) : Statement (.push b) := rfl
theorem shift (b : Byte) : Statement (.shift b) := rfl
theorem validate (w : Window) : Statement (.validate w) := rfl
theorem decode (w : Window) : Statement (.decode w) := rfl
theorem estimate (h : Horizontal) (v : Vertical) : Statement (.estimate h v) := rfl
theorem edgePress : Statement .edgePress := rfl
theorem edgeRelease : Statement .edgeRelease := rfl
theorem edgeStayReleased : Statement .edgeStayReleased := rfl
theorem edgeStayHeld : Statement .edgeStayHeld := rfl

end Sys2Proof.Laws.EncodeFormat
end

