-- ==== Sys2Proof/Laws/State.lean ====
section
/-! SUPPORT. One lemma per field per update of the state, so that no proof unfolds a record update; and the small
lemmas of the output beats and of the estimate in flight. -/

namespace Sys2Proof.Machine

/-! ### The clock edge -/

@[simp] theorem latch_window (s : State) (w : Window) (h : Bool) (o : OutBeat) : (s.latch w h o).window = w := rfl
@[simp] theorem latch_held (s : State) (w : Window) (h : Bool) (o : OutBeat) : (s.latch w h o).held = h := rfl
@[simp] theorem latch_out (s : State) (w : Window) (h : Bool) (o : OutBeat) : (s.latch w h o).out = o := rfl
@[simp] theorem latch_input (s : State) (w : Window) (h : Bool) (o : OutBeat) : (s.latch w h o).input = s.input := rfl
@[simp] theorem latch_stage (s : State) (w : Window) (h : Bool) (o : OutBeat) : (s.latch w h o).stage = .boundary := rfl

/-! ### A place inside a PUSH -/

@[simp] theorem enter_window (s : State) (st : Stage) : (s.enter st).window = s.window := rfl
@[simp] theorem enter_held (s : State) (st : Stage) : (s.enter st).held = s.held := rfl
@[simp] theorem enter_out (s : State) (st : Stage) : (s.enter st).out = s.out := rfl
@[simp] theorem enter_input (s : State) (st : Stage) : (s.enter st).input = s.input := rfl
@[simp] theorem enter_stage (s : State) (st : Stage) : (s.enter st).stage = st := rfl

@[simp] theorem setWindow_window (s : State) (w : Window) : (s.setWindow w).window = w := rfl
@[simp] theorem setWindow_held (s : State) (w : Window) : (s.setWindow w).held = s.held := rfl
@[simp] theorem setWindow_out (s : State) (w : Window) : (s.setWindow w).out = s.out := rfl
@[simp] theorem setWindow_input (s : State) (w : Window) : (s.setWindow w).input = s.input := rfl
@[simp] theorem setWindow_stage (s : State) (w : Window) : (s.setWindow w).stage = s.stage := rfl

/-! ### The end of a PUSH on a frame -/

@[simp] theorem finishEdge_window (s : State) (h a : Bool) (ev : Event) : (s.finishEdge h a ev).window = s.window := rfl
@[simp] theorem finishEdge_held (s : State) (h a : Bool) (ev : Event) : (s.finishEdge h a ev).held = h := rfl
@[simp] theorem finishEdge_out (s : State) (h a : Bool) (ev : Event) :
    (s.finishEdge h a ev).out = frameBeat (s.stage.inFlight.withActive a) ev := rfl
@[simp] theorem finishEdge_input (s : State) (h a : Bool) (ev : Event) : (s.finishEdge h a ev).input = s.input := rfl
@[simp] theorem finishEdge_stage (s : State) (h a : Bool) (ev : Event) : (s.finishEdge h a ev).stage = .boundary := rfl

/-! ### Output beats -/

@[simp] theorem frameBeat_outValid (e : Estimate) (ev : Event) : (frameBeat e ev).outValid = true := rfl
@[simp] theorem frameBeat_frameOk (e : Estimate) (ev : Event) : (frameBeat e ev).frameOk = true := rfl
@[simp] theorem frameBeat_active (e : Estimate) (ev : Event) : (frameBeat e ev).active = e.active := rfl
@[simp] theorem frameBeat_event (e : Estimate) (ev : Event) : (frameBeat e ev).event = ev.code := rfl
@[simp] theorem frameBeat_minX (e : Estimate) (ev : Event) : (frameBeat e ev).minX = e.minX := rfl
@[simp] theorem frameBeat_maxX (e : Estimate) (ev : Event) : (frameBeat e ev).maxX = e.maxX := rfl
@[simp] theorem frameBeat_minY (e : Estimate) (ev : Event) : (frameBeat e ev).minY = e.minY := rfl
@[simp] theorem frameBeat_maxY (e : Estimate) (ev : Event) : (frameBeat e ev).maxY = e.maxY := rfl
@[simp] theorem frameBeat_xNum (e : Estimate) (ev : Event) : (frameBeat e ev).xNum = e.xNum := rfl
@[simp] theorem frameBeat_yNum (e : Estimate) (ev : Event) : (frameBeat e ev).yNum = e.yNum := rfl

@[simp] theorem syncLossBeat_outValid : syncLossBeat.outValid = true := rfl
@[simp] theorem syncLossBeat_frameOk : syncLossBeat.frameOk = false := rfl
@[simp] theorem syncLossBeat_event : syncLossBeat.event = 0 := rfl
@[simp] theorem zero_outValid : OutBeat.zero.outValid = false := rfl
@[simp] theorem zero_frameOk : OutBeat.zero.frameOk = false := rfl
@[simp] theorem zero_event : OutBeat.zero.event = 0 := rfl

/-! ### The estimate in flight -/

@[simp] theorem inFlight_edge (e : Estimate) : (Stage.edge e).inFlight = e := rfl
@[simp] theorem inactive_active : Estimate.inactive.active = false := rfl
@[simp] theorem withActive_false (e : Estimate) : e.withActive false = Estimate.inactive := rfl

theorem withActive_active (e : Estimate) (a : Bool) : (e.withActive a).active = a := by
  cases a <;> rfl

theorem withActive_self (e : Estimate) (h : e.active = true) : e.withActive true = e := by
  cases e; simp_all [Estimate.withActive]

/-! ### The state after reset -/

@[simp] theorem reset_window : State.reset.window = resetWindow := rfl
@[simp] theorem reset_held : State.reset.held = false := rfl
@[simp] theorem reset_out : State.reset.out = OutBeat.zero := rfl
@[simp] theorem reset_input : State.reset.input = [] := rfl
@[simp] theorem reset_stage : State.reset.stage = .boundary := rfl

end Sys2Proof.Machine
end

