-- ==== Sys2Proof/Laws/Step.lean ====
section
/-! SUPPORT. What a step can do, said once: the meaning each operation has, the three beats of a cycle, and
what runs show. -/

namespace Sys2Proof.Machine

/-! ### The meanings, one lemma each -/

theorem exec_reset (s : State) : exec .reset s = .next (s.latch resetWindow false OutBeat.zero) := rfl
theorem exec_idle (s : State) : exec .idle s = .next (s.latch s.window s.held OutBeat.zero) := rfl
theorem exec_push (b : Byte) (s : State) : exec (.push b) s = .next (pushBeat b s) := rfl
theorem exec_shift (b : Byte) (s : State) :
    exec (.shift b) s = .next ((s.setWindow (shiftWindow s.window b)).enter .validate) := rfl
theorem exec_validate_of_true (w : Window) (s : State) (h : validate w = true) :
    exec (.validate w) s = .next (s.enter .decode) := if_pos h
theorem exec_validate_of_false (w : Window) (s : State) (h : validate w = false) :
    exec (.validate w) s = .next (s.latch s.window s.held syncLossBeat) := if_neg (ne_true_of_eq_false h)
theorem exec_decode (w : Window) (s : State) : exec (.decode w) s =
    .next (s.enter (.estimate (horizontalOf Config.bitOrder w) (verticalOf Config.bitOrder w))) := rfl
theorem exec_estimate (h : Horizontal) (v : Vertical) (s : State) :
    exec (.estimate h v) s = .next (s.enter (.edge (estimate h v))) := rfl
theorem exec_edgePress (s : State) : exec .edgePress s = .next (s.finishEdge true true .press) := rfl
theorem exec_edgeRelease (s : State) : exec .edgeRelease s = .next (s.finishEdge false false .release) := rfl
theorem exec_edgeStayReleased (s : State) : exec .edgeStayReleased s = .next (s.finishEdge false false .none) := rfl
theorem exec_edgeStayHeld (s : State) : exec .edgeStayHeld s = .next (s.finishEdge true true .none) := rfl

/-! ### Fetching -/

theorem fetch_boundary (s : State) (h : s.stage = .boundary) : fetch s = .beat s.pins := by simp only [fetch, h]
theorem advance_boundary (s : State) (h : s.stage = .boundary) :
    advance s = { s with input := s.input.tail } := by simp only [advance, h]
theorem advance_inside (s : State) (h : s.stage ≠ .boundary) : advance s = s := by
  cases hs : s.stage <;> simp_all [advance]

/-- Between two cycles `step` is the beat on the pins, run with that beat taken. -/
theorem step_at_boundary (s : State) (h : s.stage = .boundary) :
    step s = exec (decodeBeat s.pins) { s with input := s.input.tail } := by
  simp [step, fetch, advance, h, decode]

/-- `pushBeat` on a window that is not a frame. -/
theorem pushBeat_of_not_validate (b : Byte) (s : State) (h : validate (shiftWindow s.window b) = false) :
    pushBeat b s = s.latch (shiftWindow s.window b) s.held syncLossBeat := by
  unfold pushBeat
  exact if_neg (ne_true_of_eq_false h)

/-- `pushBeat` on a frame, with the estimate named. -/
theorem pushBeat_of_validate (b : Byte) (s : State) (h : validate (shiftWindow s.window b) = true) (e : Estimate)
    (he : e = estimate (horizontalOf Config.bitOrder (shiftWindow s.window b))
      (verticalOf Config.bitOrder (shiftWindow s.window b))) :
    pushBeat b s = s.latch (shiftWindow s.window b) e.active (frameBeat e (edge s.held e.active).2) := by
  subst he
  unfold pushBeat
  refine (if_pos h).trans ?_
  simp only [edge_fst]

/-- A `PUSH` always leaves the shifted window, the waiting beats, and the machine between two cycles. -/
theorem pushBeat_frame (b : Byte) (s : State) :
    (pushBeat b s).window = shiftWindow s.window b ∧ (pushBeat b s).input = s.input ∧
      (pushBeat b s).stage = .boundary := by
  unfold pushBeat
  dsimp only
  split <;> simp

/-- `pushBeat` reads `W` and `held` alone: not `O` (R20), and not the beats still to come (R184). -/
theorem pushBeat_other_input (b : Byte) (s : State) (ws : List Beat) (o : OutBeat) :
    pushBeat b { s with input := ws, out := o } = { pushBeat b s with input := ws } := by
  generalize hw : shiftWindow s.window b = w
  have hw' : shiftWindow ({ s with input := ws, out := o } : State).window b = w := hw
  cases hv : validate w with
  | false =>
    rw [pushBeat_of_not_validate b _ (hw'.symm ▸ hv), pushBeat_of_not_validate b s (hw.symm ▸ hv), hw]
    simp only [State.latch]
  | true =>
    generalize he : estimate (horizontalOf Config.bitOrder w) (verticalOf Config.bitOrder w) = e
    rw [pushBeat_of_validate b _ (hw'.symm ▸ hv) e (by rw [hw', he]),
      pushBeat_of_validate b s (hw.symm ▸ hv) e (by rw [hw, he]), hw]
    simp only [State.latch]

/-- Everything a cycle can do: a RESET, an IDLE, or a PUSH of the byte on the pins. -/
theorem step_cases (s : State) (h : s.stage = .boundary) :
    (s.pins.getLsbD 9 = true ∧ pushedByte s.pins = none ∧
        step s = .next { State.reset with input := s.input.tail }) ∨
    (s.pins.getLsbD 9 = false ∧ pushedByte s.pins = none ∧
        step s = .next { s with out := OutBeat.zero, input := s.input.tail }) ∨
    (∃ b, s.pins.getLsbD 9 = false ∧ pushedByte s.pins = some b ∧
        step s = .next (pushBeat b { s with input := s.input.tail })) := by
  rw [step_at_boundary s h]
  unfold decodeBeat pushedByte
  cases h9 : s.pins.getLsbD 9 with
  | true => exact .inl ⟨rfl, rfl, rfl⟩
  | false =>
    cases h8 : s.pins.getLsbD 8 with
    | true => exact .inr (.inr ⟨_, rfl, rfl, rfl⟩)
    | false =>
      refine .inr (.inl ⟨rfl, rfl, ?_⟩)
      simp [exec, execIdle, State.latch, h]

/-! ### Runs -/

variable {s t : State}

theorem runSteps_succ (k : Nat) (h : step s = .next t) : runSteps (k + 1) s = runSteps k t := by
  simp only [runSteps, h]
theorem outputs_succ (k : Nat) (h : step s = .next t) : outputs (k + 1) s = t.out :: outputs k t := by
  simp only [outputs, h]

/-- What steps show once they are known to end in `t`. -/
theorem observe_of_runSteps (k : Nat) (h : runSteps k s = .next t) :
    observe k s = some { beats := (outputs k s).filter OutBeat.outValid, window := t.window, held := t.held } := by
  simp only [observe, h]

/-- Steps that can be observed end in a state with the observed window and `held`. -/
theorem exists_runSteps_of_observe (k : Nat) {o : Observation} (h : observe k s = some o) :
    ∃ u, runSteps k s = .next u ∧ o.window = u.window ∧ o.held = u.held ∧
      o.beats = (outputs k s).filter OutBeat.outValid := by
  unfold observe at h
  split at h
  · cases h
    exact ⟨_, ‹_›, rfl, rfl, rfl⟩
  · cases h
  · cases h

end Sys2Proof.Machine
end

