-- ==== Sys2Proof/Tests/Slice0.lean ====
section
/-! SUPPORT. Tests whose expected values are the spec's own vectors (95_test_vectors.md, rules R83, R103, R118, R137),
and one witness per statement with hypotheses: a concrete state and operands that meet all of them. -/

namespace Sys2Proof.Tests

open Sys2Proof Sys2Proof.Machine

/-- Frame `A` of 95_test_vectors.md: a touch at horizontal 5, vertical 10. -/
def frameA : Window := #v[0x55, 0x54, 0x4C, 0, 0, 0, 0, 0, 0, 0, 0, 0x02, 0, 0, 0x20, 0, 0, 0, 0, 0, 0xC1]
/-- Frame `B`: touches at horizontal 4 and 5, vertical 10 and 11. -/
def frameB : Window := #v[0x55, 0x54, 0x4C, 0, 0, 0, 0, 0, 0, 0, 0, 0x03, 0, 0, 0x30, 0, 0, 0, 0, 0, 0xD2]
/-- Frame `C`: no touch. -/
def frameC : Window := #v[0x55, 0x54, 0x4C, 0, 0, 0, 0, 0, 0, 0, 0, 0, 0, 0, 0, 0, 0, 0, 0, 0, 0x9F]
/-- The window `Z9E`: its checksum is one too low. -/
def windowZ9E : Window := #v[0x55, 0x54, 0x4C, 0, 0, 0, 0, 0, 0, 0, 0, 0, 0, 0, 0, 0, 0, 0, 0, 0, 0x9E]

/-- The state after reset with `held` as given and the first 20 bytes of `F` pushed. -/
def ready (F : Window) (held : Bool) : State :=
  { State.reset with window := Vector.ofFn fun i : Fin 21 => if h : i.val = 0 then 0 else F[i.val - 1], held := held }

/-- The packed output beat a step leaves, if it answers a next state. -/
def outOf : Result → Option (BitVec 46)
  | .next t => some t.out.pack
  | .fault _ => none
  | .refused _ => none

/-- The next state of a step, if it answers one. -/
def nextOf : Result → Option State
  | .next t => some t
  | .fault _ => none
  | .refused _ => none

/-- The place a step leaves. -/
def stageOf (r : Result) : Option Stage := (nextOf r).map State.stage

/-- The set indices of a bitmap. -/
def setOf {n : Nat} (v : Vector Bool n) : List Nat := (v.toList.zipIdx.filter Prod.fst).map Prod.snd

/-- The bitmap with the given set indices. -/
def bitmap (n : Nat) (is : List Nat) : Vector Bool n := Vector.ofFn fun i : Fin n => is.contains i.val

/-! ### The decoder, on words written out from R55 and R73 -/

theorem test_decode_reset : decode (.beat 0b1000000000) = .ok .reset := by decide
theorem test_decode_reset_with_byte : decode (.beat 0b1101010101) = .ok .reset := by decide
theorem test_decode_idle_ignores_byte : decode (.beat 0b0011111111) = .ok .idle := by decide
theorem test_decode_push : decode (.beat 0b0111000001) = .ok (.push 0xC1) := by decide
theorem test_decode_shift : decode (.shift 0b0101010100) = .ok (.shift 0x54) := by decide
theorem test_decode_shift_refuses_idle : decode (.shift 0b0001010100) = .error .notAPush := by decide
theorem test_decode_validate :
    decode (.validate 0x55544C00000000000000000000000000000000009E) = .ok (.validate windowZ9E) := by decide +kernel
theorem test_decode_decode :
    decode (.decode 0x55544C0000000000000000020000200000000000C1) = .ok (.decode frameA) := by decide +kernel
theorem test_decode_decode_refuses_non_frame :
    decode (.decode 0x55544C00000000000000000000000000000000009E) = .error .notAFrame := by decide +kernel
/-- Horizontal 5 is bit 76 + 5 of the BITMAPS word, vertical 10 is bit 10 (log entry 5). -/
theorem test_decode_estimate :
    decode (.bitmaps 0x200000000000000000400) = .ok (.estimate (bitmap 48 [5]) (bitmap 76 [10])) := by decide +kernel
theorem test_decode_edge_rows :
    decode (.edge 0b01) = .ok .edgePress ∧ decode (.edge 0b10) = .ok .edgeRelease ∧
    decode (.edge 0b00) = .ok .edgeStayReleased ∧ decode (.edge 0b11) = .ok .edgeStayHeld := by decide

theorem test_wellFormed_refuses_decode_of_non_frame : (Instr.decode windowZ9E).wellFormed = false := by decide

/-! ### The operations -/

/-- V-SYN-1, V-SYN-14. -/
theorem test_reset_from_held :
    exec .reset (ready frameA true) = .next State.reset := by rfl
/-- V-SYN-3. -/
theorem test_idle_keeps_held : (nextOf (exec .idle (ready frameA true))).map State.held = some true := by decide
/-- Program P1, beat 22. -/
theorem test_push_reports_press : outOf (exec (.push 0xC1) (ready frameA false)) = some 0x5050A1428AF := by decide +kernel
/-- Program P3, beat 66. -/
theorem test_push_reports_release : outOf (exec (.push 0x9F) (ready frameC true)) = some 0x13 := by decide +kernel
/-- The example of rule R83. -/
theorem test_shift_example :
    shiftWindow #v[0, 1, 2, 3, 4, 5, 6, 7, 8, 9, 10, 11, 12, 13, 14, 15, 16, 17, 18, 19, 20] 0xAA =
      #v[1, 2, 3, 4, 5, 6, 7, 8, 9, 10, 11, 12, 13, 14, 15, 16, 17, 18, 19, 20, 0xAA] := by decide
/-- V-VAL-9: 17 payload bytes of 0xFF. -/
theorem test_validate_sum_wraps :
    stageOf (exec (.validate (frameWindow (Vector.replicate 17 0xFF) 0x8E)) State.reset) = some .decode := by decide
/-- V-VAL-3: the checksum is one too high. -/
theorem test_validate_refuses_high_checksum :
    stageOf (exec (.validate (frameWindow (Vector.replicate 17 0) 0xA0)) State.reset) = some .boundary := by decide
/-- V-DEC-2: index reversal, no reversal within the byte. -/
theorem test_decode_reverses_index :
    setOf (verticalOf Config.bitOrder (#v[0x55, 0x54, 0x4C, 0x80, 0, 0, 0, 0, 0, 0, 0, 0, 0, 0, 0, 0, 0, 0, 0, 0, 0])) =
      [68] := by decide +kernel
/-- V-DEC-15: the last horizontal and the first vertical position. -/
theorem test_decode_ends :
    let w : Window := #v[0x55, 0x54, 0x4C, 0, 0, 0, 0, 0, 0, 0, 0, 0, 0x08, 0, 0, 0, 0, 0, 0, 0x80, 0x27]
    stageOf (exec (.decode w) State.reset) = some (.estimate (bitmap 48 [47]) (bitmap 76 [0])) := by decide +kernel
/-- V-EST-9: two touches and their ghosts. -/
theorem test_estimate_box :
    stageOf (exec (.estimate (bitmap 48 [2, 40]) (bitmap 76 [3, 60])) State.reset) =
      some (.edge { active := true, minX := 2, maxX := 40, minY := 3, maxY := 60, xNum := 42, yNum := 63 }) := by
  decide +kernel
/-- V-EST-3: one axis is empty. -/
theorem test_estimate_one_empty_axis :
    stageOf (exec (.estimate (bitmap 48 [0]) (bitmap 76 [])) State.reset) = some (.edge Estimate.inactive) := by
  decide +kernel

/-- The estimate of frame `A`. -/
def estimateA : Estimate := { active := true, minX := 5, maxX := 5, minY := 10, maxY := 10, xNum := 10, yNum := 20 }

/-- V-EDG-1. -/
theorem test_edge_press : outOf (exec .edgePress ((ready frameA false).enter (.edge estimateA))) = some 0x5050A1428AF := by decide
/-- V-EDG-2. -/
theorem test_edge_release :
    outOf (exec .edgeRelease ((ready frameA true).enter (.edge Estimate.inactive))) = some 0x13 := by decide
/-- V-EDG-3. -/
theorem test_edge_stay_released :
    outOf (exec .edgeStayReleased ((ready frameA false).enter (.edge Estimate.inactive))) = some 0x3 := by decide
/-- V-EDG-4. -/
theorem test_edge_stay_held :
    outOf (exec .edgeStayHeld ((ready frameB true).enter
      (.edge { active := true, minX := 4, maxX := 5, minY := 10, maxY := 11, xNum := 9, yNum := 21 }))) =
      some 0x5448B142887 := by decide

/-- Rule R71: `A` is `TOUCH` of horizontal 5 and vertical 10. -/
theorem test_touch_is_frame_A : touchFrame (bitmap 48 [5]) (bitmap 76 [10]) = frameA := by decide +kernel
/-- Rule R70: `EMPTY` is the frame `C`. -/
theorem test_empty_is_frame_C : emptyFrame = frameC := by decide +kernel

/-! ### Witnesses: the hypotheses of the statements can be met -/

theorem frameA_isFrame : IsFrame frameA := by unfold IsFrame; decide +kernel
theorem frameC_isFrame : IsFrame frameC := by unfold IsFrame; decide +kernel
theorem windowZ9E_notFrame : ¬ IsFrame windowZ9E := by unfold IsFrame; decide +kernel
theorem shifted_ready_A : shiftWindow (ready frameA false).window 0xC1 = frameA := by decide +kernel
theorem shifted_ready_C : shiftWindow (ready frameC true).window 0x9F = frameC := by decide +kernel
theorem shifted_ready_Z9E : shiftWindow (ready frameC false).window 0x9E = windowZ9E := by decide +kernel

theorem witness_BeatDecodeByPattern :
    ((0x200 : Beat).getLsbD 9 = true ∧ (0x3FF : Beat).getLsbD 9 = true) ∧
    ((0x000 : Beat).getLsbD 9 = false ∧ (0x000 : Beat).getLsbD 8 = false) ∧
    ((0x0FF : Beat).getLsbD 9 = false ∧ (0x0FF : Beat).getLsbD 8 = false) ∧
    ((0x100 : Beat).getLsbD 9 = false ∧ (0x100 : Beat).getLsbD 8 = true) ∧
    ((0x1FF : Beat).getLsbD 9 = false ∧ (0x1FF : Beat).getLsbD 8 = true) := by decide

theorem witness_DecodeOfEncode : (Instr.decode frameC).wellFormed = true ∧ (Instr.push 0xFF).wellFormed = true := by
  decide

theorem witness_EncodeOfDecode :
    decode (.beat 0x1FF) = .ok (.push 0xFF) ∧ (∀ w : Beat, OpWord.beat 0x1FF = .beat w →
      w.getLsbD 9 = false ∧ w.getLsbD 8 = true) ∧ decode (.edge 3) = .ok .edgeStayHeld := by
  refine ⟨by decide, ?_, by decide⟩
  intro w hw
  injection hw with hw
  subst hw
  decide

theorem witness_StepRunsDecoded :
    decode (fetch State.reset) = .ok .idle ∧ State.reset.stage = .boundary ∧
    (State.reset.enter .validate).stage ≠ .boundary := by decide

theorem witness_StepInsidePushRunsRow :
    (State.reset.enter (.shift 0xFF)).stage = .shift 0xFF ∧ (State.reset.enter .validate).stage = .validate ∧
    (IsFrame ({ State.reset with window := frameA, stage := .decode } : State).window) ∧
    (¬ IsFrame ({ State.reset with window := windowZ9E, stage := .decode } : State).window) ∧
    (State.reset.enter (.estimate (bitmap 48 [0]) (bitmap 76 [75]))).stage =
      .estimate (bitmap 48 [0]) (bitmap 76 [75]) ∧
    ((ready frameA false).enter (.edge estimateA)).held = false ∧ estimateA.active = true ∧
    ((ready frameA true).enter (.edge Estimate.inactive)).held = true ∧ Estimate.inactive.active = false :=
  ⟨rfl, rfl, frameA_isFrame, windowZ9E_notFrame, rfl, rfl, rfl, rfl, rfl⟩

theorem witness_PlacedTableWordRuns :
    decodeTableWord 16 0x200 = some .reset ∧ decodeTableWord 10 0x1FF = some (.push 0xFF) ∧
    decodeTableWord 8 3 = some .edgeStayHeld ∧ decodeTableWord 128 0 = some (.estimate (bitmap 48 []) (bitmap 76 [])) ∧
    decodeTableWord 168 0 = some (.validate resetWindow) ∧
    decodeTableWord 168 0x55544C00000000000000000000000000000000009F = some (.decode frameC) := by decide +kernel

/-- Reset stands between two cycles: the hypothesis of EveryBeatCompletes, NoBeatReadsOutput and IdleRunKeepsState. -/
theorem witness_boundary : State.reset.stage = .boundary ∧
    (∀ w ∈ State.reset.input.take 1, w.getLsbD 9 = false ∧ w.getLsbD 8 = false) ∧
    (∀ w ∈ ([0x000, 0x0FF] : List Beat).take 2, w.getLsbD 9 = false ∧ w.getLsbD 8 = false) := by decide

theorem witness_invariant_inside_push :
    State.Inv { State.reset with window := frameA, stage := .decode } ∧
    State.Inv { State.reset with stage := .edge estimateA } ∧
    nextOf (step { State.reset with window := frameA, stage := .decode }) ≠ none := by
  have out : OutBeat.zero.Consistent false := by
    constructor <;> simp [OutBeat.zero, Event.code]
  have validA : validate frameA = true := by decide
  refine ⟨⟨out, validA⟩, ⟨out, ?_⟩, by decide +kernel⟩
  constructor <;> simp [estimateA]

/-- The hypotheses of EveryBeatWritesOutput, NoFrameNoEvent and EdgeClosedForm: a push of a frame, a RESET, an IDLE. -/
theorem witness_step_at_boundary :
    (∃ t, step { ready frameC true with input := [0x19F] } = .next t ∧ t.out.frameOk = true) ∧
    (∃ t, step { ready frameC true with input := [0x2FF] } = .next t ∧ t.out.frameOk = false) ∧
    (∃ t, step { ready frameC true with input := [0x0FF] } = .next t ∧ t.out.frameOk = false) ∧
    (∃ t, step { ready frameC true with input := [0x19E] } = .next t ∧ t.out.frameOk = false) := by
  refine ⟨?_, ⟨_, rfl, rfl⟩, ⟨_, rfl, rfl⟩, ?_⟩
  · have h : (nextOf (step { ready frameC true with input := [0x19F] })).map (fun t => t.out.frameOk) = some true := by
      decide +kernel
    cases hs : step { ready frameC true with input := [0x19F] } <;> simp_all [nextOf]
  · have h : (nextOf (step { ready frameC true with input := [0x19E] })).map (fun t => t.out.frameOk) = some false := by
      decide +kernel
    cases hs : step { ready frameC true with input := [0x19E] } <;> simp_all [nextOf]

theorem witness_IgnoredPinsChangeNothing :
    ((0x200 : Beat).getLsbD 9 = true ∧ (0x3FF : Beat).getLsbD 9 = true) ∧
    ((0x000 : Beat).getLsbD 9 = false ∧ (0x000 : Beat).getLsbD 8 = false) ∧
    ((0x0FF : Beat).getLsbD 9 = false ∧ (0x0FF : Beat).getLsbD 8 = false) := by decide

/-- The hypotheses of ResetWinsOverByte and PowerOnNeedsReset: a RESET whose cycle offers the byte 0x55. -/
theorem witness_reset_pins :
    ({ State.reset with input := [0x355] } : State).stage = .boundary ∧
    ({ State.reset with input := [0x355] } : State).pins.getLsbD 9 = true := by decide

theorem witness_ShiftMovesWindow : (List.replicate 21 (0x55 : Byte)).length = 21 := by decide

theorem witness_PushOfNonFrame : ¬ IsFrame (shiftWindow (ready frameC false).window 0x9E) := by
  rw [shifted_ready_Z9E]
  exact windowZ9E_notFrame

theorem witness_PushOfFrame :
    IsFrame (shiftWindow (ready frameA false).window 0xC1) ∧ IsFrame (shiftWindow (ready frameC true).window 0x9F) := by
  rw [shifted_ready_A, shifted_ready_C]
  exact ⟨frameA_isFrame, frameC_isFrame⟩

theorem witness_FailedWindowsLookAlike :
    (ready frameC false).held = State.reset.held ∧ ¬ IsFrame (shiftWindow (ready frameC false).window 0x9E) ∧
    ¬ IsFrame (shiftWindow State.reset.window 0x55) := by
  refine ⟨rfl, witness_PushOfNonFrame, ?_⟩
  unfold IsFrame
  decide +kernel

theorem witness_InternalOperationsHandOn : IsFrame frameA ∧ ¬ IsFrame windowZ9E := ⟨frameA_isFrame, windowZ9E_notFrame⟩

/-- The hypotheses of WindowIsLastBytes, EventsAlternate and HeldCountsEvents: a frame pushed after reset. -/
theorem witness_stream :
    ({ State.reset with input := windowBeats frameA } : State).stage = .boundary ∧
    ({ State.reset with input := windowBeats frameA } : State).held = false ∧
    NoReset 21 { State.reset with input := windowBeats frameA } := by
  refine ⟨rfl, rfl, ?_⟩
  unfold NoReset
  decide +kernel

theorem witness_NoFrameBeforePush21 :
    NoReset 20 { State.reset with input := windowBeats frameA } ∧
    (nextBytes 20 { State.reset with input := windowBeats frameA }).length ≤ 20 ∧
    outputs 20 { State.reset with input := windowBeats frameA } ≠ [] := by
  unfold NoReset
  decide +kernel

theorem witness_FramesAtLeastThreePushesApart :
    IsFrame ({ State.reset with window := frameA, input := [0x155, 0x000, 0x154] } : State).window ∧
    NoReset 3 { State.reset with window := frameA, input := [0x155, 0x000, 0x154] } ∧
    (nextBytes 3 { State.reset with window := frameA, input := [0x155, 0x000, 0x154] }).length ≤ 2 := by
  refine ⟨frameA_isFrame, ?_⟩
  unfold NoReset
  decide +kernel

/-- Two IDLE cycles, then frame `C`, then a RESET still to come. -/
theorem witness_Resynchronization :
    IsFrame frameC ∧ (∀ w ∈ [0x000, 0x0FF] ++ windowBeats frameC, isResetBeat w = false) ∧
    pushedBytes ([0x000, 0x0FF] ++ windowBeats frameC) = frameC.toList ∧
    ([0x000, 0x0FF] ++ windowBeats frameC).getLast? = some (pushWord frameC[20]) := by
  refine ⟨frameC_isFrame, ?_⟩
  decide +kernel

theorem witness_ChecksumForms :
    let p : Payload := #v[1, 2, 3, 0, 0, 0, 0, 0, 0, 0, 0, 0, 0, 0, 0, 0, 0xFF]
    p.toList.reverse.Perm p.toList ∧ (p.toList ++ [0xA0]).Perm (0xA0 :: p.toList) :=
  ⟨List.reverse_perm _, List.perm_append_singleton _ _⟩

theorem witness_ChecksumSeesOnlySum :
    (#v[1, 0, 0, 0, 0, 0, 0, 0, 0, 0, 0, 0, 0, 0, 0, 0, 0] : Payload).toList.Perm
      (#v[0, 0, 0, 0, 0, 0, 0, 0, 0, 0, 0, 0, 0, 0, 0, 0, 1] : Payload).toList := by decide +kernel

/-- Two windows that differ in unused bits only. -/
theorem witness_UnusedBitsAreIgnored :
    let w : Window := frameA.set 12 0xF1
    let w' : Window := (frameA.set 12 0x01).set 13 0xFF
    (∀ (i : Nat) (_ : i < 21), i ≠ 12 → i ≠ 13 → w[i] = w'[i]) ∧
    (∀ k : Nat, k < 4 → (w[12]).getLsbD k = (w'[12]).getLsbD k) ∧ w ≠ w' := by decide +kernel

/-- The ends of the index ranges of DecodeReadsAxisBits and ValidateIsMagicAndChecksum. -/
theorem witness_index_ranges : 0 < 76 ∧ 75 < 76 ∧ 0 < 48 ∧ 47 < 48 ∧ 0 < 17 ∧ 16 < 17 := by decide

theorem witness_TouchFrameDecodesBack : 4 ≤ 4 ∧ 4 ≤ 7 := by decide

/-- A pair set with one pair, and an estimate with and without a touch: the hypotheses of EstimateIsPerAxisBox,
EstimateIsPairBox, EstimateRanges and PointRange. -/
theorem witness_estimate :
    (bitmap 48 [47])[47] = true ∧ (bitmap 76 [75])[75] = true ∧
    (estimate (bitmap 48 [47]) (bitmap 76 [75])).active = true ∧
    (estimate (bitmap 48 [0]) (bitmap 76 [])).active = false := by decide +kernel

theorem witness_EstimateIsPairBox :
    ({p | (bitmap 48 [47])[p.1.val] = true ∧ (bitmap 76 [75])[p.2.val] = true} : Set (Fin 48 × Fin 76)).Nonempty :=
  ⟨(47, 75), by decide, by decide⟩

theorem witness_ScanOrderIsFree : ∀ p : Fin 48 × Fin 76, p ∈ ((Finset.univ : Finset (Fin 48 × Fin 76)).toList).reverse := by
  intro p
  simp only [List.mem_reverse, Finset.mem_toList, Finset.mem_univ]

theorem witness_MidpointModesDifferOnOddSums : (frameBeat estimateA .press).active = true := by decide

/-- A run of `RESET(0x55)`, `IDLE`, `PUSH 0x55`: the first `0x55` is dropped (R56), one output beat `0x1` (R92). -/
theorem test_run_observed :
    (observation [0x355, 0x000, 0x155]).map (fun o => (o.beats.map OutBeat.pack, o.window[19], o.window[20], o.held)) =
      some ([0x1], 0x00, 0x55, false) := by decide +kernel

/-- The hypothesis of ObservationGrowsByOneBeat: a run that is observed; its next beat can be a PUSH. -/
theorem witness_ObservationGrowsByOneBeat :
    (observation [0x200, 0x155]).isSome = true ∧ pushedByte 0x154 = some 0x54 := by decide +kernel

/-- The hypothesis of ResetStartsTheRunAfresh, with the lowest and the highest RESET beat. -/
theorem witness_ResetStartsTheRunAfresh :
    (0x200 : Beat).getLsbD 9 = true ∧ (0x3FF : Beat).getLsbD 9 = true := by decide

theorem witness_EdgeRowsEndThePush :
    ((ready frameA false).enter (.edge estimateA)).stage = .edge estimateA ∧ (ready frameA false).held = false ∧
    estimateA.active = true ∧ (ready frameA true).held = true ∧ Estimate.inactive.active = false := by
  refine ⟨rfl, rfl, rfl, rfl, rfl⟩

end Sys2Proof.Tests
end

section
/-! # Scope: how one step runs the opcode table, and how a PUSH is made of its internal operations

First the facts later proofs need (the bit orders, VALIDATE against the frames of R95, the decoder at each place of a
`PUSH`, one step at each place), then the statements O8, O27, O43, O7 and O23. -/

namespace Sys2Proof.Machine

/-! ### The two bit orders (rule R8) -/

/-- MSB0 reads a byte as LSB0 reads its mirror image (rule R8). -/
theorem bit_msb0 (b : Byte) (k : Nat) (hk : k < 8) : bit .msb0 b k = bit .lsb0 b.reverse k := by
  simp only [bit, BitVec.getLsbD_reverse, BitVec.getMsbD, hk, decide_true, Bool.true_and, Nat.add_one_sub_one]

/-! ### VALIDATE answers 1 on the frames, and only there (rules R95 to R100) -/

/-- The magic check by its three literal bytes (rule R96). -/
theorem magicOk_eq_true_iff (w : Window) :
    magicOk w = true ↔ w[0] = 0x55 ∧ w[1] = 0x54 ∧ w[2] = 0x4C := by
  simp only [magicOk, Bool.and_eq_true, beq_iff_eq, Config.magic0, Config.magic1, Config.magic2, and_assoc]

/-- The sum over the payload list is the sum over the window's entries 3 to 19 (rule R59). -/
theorem sum_payloadOf (w : Window) :
    ((payloadOf w).toList.map BitVec.toNat).sum = ∑ j : Fin 17, (w[3 + j.val]).toNat := by
  simp only [payloadOf, Config.payloadOff, Vector.toList_ofFn, List.map_ofFn, List.sum_ofFn, Function.comp_apply]

/-- The checksum as a number: the exact sum, reduced once (rule R98). -/
theorem toNat_checksum (p : Payload) :
    (checksum p).toNat = (0xFF + (p.toList.map BitVec.toNat).sum + 0xA0) % 256 := by
  simp only [checksum, Config.csumK1, Config.csumK2, BitVec.toNat_ofNat, Nat.reducePow]

theorem validate_iff_isFrame (w : Window) : validate w = true ↔ IsFrame w := by
  rw [validate_eq_true, magicOk_eq_true_iff, ← BitVec.toNat_inj (x := checksum _), toNat_checksum, sum_payloadOf]
  simp only [IsFrame, checksumByte, and_assoc]

theorem validate_eq_false_iff (w : Window) : validate w = false ↔ ¬ IsFrame w := by
  rw [← validate_iff_isFrame, Bool.not_eq_true]

/-! ### The decoder at the places inside a PUSH (rules R69, R73) -/

theorem decode_shift_pushWord (b : Byte) : decode (.shift (pushWord b)) = .ok (.shift b) := by
  simp only [decode, decodeShift, pushWord_selector, pushWord_byte, if_pos]

theorem decode_validate_packWindow (w : Window) : decode (.validate (packWindow w)) = .ok (.validate w) := by
  simp only [decode, unpackWindow_packWindow]

theorem decode_decode_of_isFrame (w : Window) (h : IsFrame w) :
    decode (.decode (packWindow w)) = .ok (.decode w) := by
  simp only [decode, decodeWindow, unpackWindow_packWindow, (validate_iff_isFrame w).mpr h, if_pos]

theorem decode_decode_of_not_isFrame (w : Window) (h : ¬ IsFrame w) :
    decode (.decode (packWindow w)) = .error .notAFrame := by
  simp only [decode, decodeWindow, unpackWindow_packWindow, (validate_eq_false_iff w).mpr h,
    Bool.false_eq_true, if_false]

theorem decode_bitmaps_packBitmaps (h : Horizontal) (v : Vertical) :
    decode (.bitmaps (packBitmaps h v)) = .ok (.estimate h v) := by
  simp only [decode, bitmapsH_packBitmaps, bitmapsV_packBitmaps]

/-! ### One step at each place inside a PUSH (rule R3) -/

theorem step_of_decode (s : State) (i : Instr) (h : decode (fetch s) = .ok i) : step s = exec i (advance s) := by
  simp only [step, h]

/-- Inside a `PUSH` no beat is taken, so the operation runs in the state itself. -/
theorem step_inside_of_decode (s : State) (i : Instr) (hs : s.stage ≠ .boundary) (h : decode (fetch s) = .ok i) :
    step s = exec i s := by
  rw [step_of_decode s i h, advance_inside s hs]

section Places
variable {s : State}

theorem step_at_shift {b : Byte} (hs : s.stage = .shift b) : step s = exec (.shift b) s :=
  step_inside_of_decode s _ (by simp [hs]) (by simp only [fetch, hs, decode_shift_pushWord])

theorem step_at_validate (hs : s.stage = .validate) : step s = exec (.validate s.window) s :=
  step_inside_of_decode s _ (by simp [hs]) (by simp only [fetch, hs, decode_validate_packWindow])

theorem step_at_decode_of_isFrame (hs : s.stage = .decode) (hf : IsFrame s.window) :
    step s = exec (.decode s.window) s :=
  step_inside_of_decode s _ (by simp [hs]) (by simp only [fetch, hs, decode_decode_of_isFrame _ hf])

theorem step_at_decode_of_not_isFrame (hs : s.stage = .decode) (hf : ¬ IsFrame s.window) :
    step s = .refused (.undecodable .notAFrame) := by
  simp only [step, fetch, hs, decode_decode_of_not_isFrame _ hf]

theorem step_at_estimate {h : Horizontal} {v : Vertical} (hs : s.stage = .estimate h v) :
    step s = exec (.estimate h v) s :=
  step_inside_of_decode s _ (by simp [hs]) (by simp only [fetch, hs, decode_bitmaps_packBitmaps])

/-- The EDGE row is the one the decoder reads from `held` and the `active` in flight. -/
theorem step_at_edge {e : Estimate} {held a : Bool} (hs : s.stage = .edge e) (hheld : s.held = held)
    (hactive : e.active = a) : step s = exec (decodeEdge (BitVec.ofBool held ++ BitVec.ofBool a)) s :=
  step_inside_of_decode s _ (by simp [hs]) (by simp only [fetch, hs, hheld, hactive, decode])

end Places

/-! ### EDGE ends the PUSH as rule R145 says -/

/-- The row that `held` and `a` select leaves `held = a` and the event of EDGE, whichever of the four rows it is. -/
theorem exec_decodeEdge (held a : Bool) (s : State) :
    exec (decodeEdge (BitVec.ofBool held ++ BitVec.ofBool a)) s = .next (s.finishEdge a a (edge held a).2) := by
  cases held with
  | false =>
    cases a with
    | false => exact exec_edgeStayReleased s
    | true => exact exec_edgePress s
  | true =>
    cases a with
    | false => exact exec_edgeRelease s
    | true => exact exec_edgeStayHeld s

/-- An estimate without a touch has every other field 0 too (rule R133). -/
theorem estimate_eq_inactive (h : Horizontal) (v : Vertical) (ha : (estimate h v).active = false) :
    estimate h v = Estimate.inactive := by
  obtain ⟨-, he⟩ | ⟨b, -, he⟩ := estimate_cases h v
  · exact he
  · rw [he] at ha
    cases ha

/-- The EDGE operation reports the estimate of ESTIMATE as it is: its pattern has the estimate's own `active`. -/
theorem estimate_withActive_self (h : Horizontal) (v : Vertical) :
    (estimate h v).withActive (estimate h v).active = estimate h v := by
  cases ha : (estimate h v).active with
  | false => rw [withActive_false, estimate_eq_inactive h v ha]
  | true => exact withActive_self _ ha

/-! ### A PUSH run one by one (rules R3, R82) -/

/-- From a frame at the DECODE place, three steps report the touch and end the `PUSH`. -/
theorem runSteps_from_decode (s : State) (hs : s.stage = .decode) (hf : IsFrame s.window) (e : Estimate)
    (he : e = estimate (horizontalOf Config.bitOrder s.window) (verticalOf Config.bitOrder s.window)) :
    runSteps 3 s = .next (s.latch s.window e.active (frameBeat e (edge s.held e.active).2)) := by
  have hself : e.withActive e.active = e := by rw [he, estimate_withActive_self]
  have hdecode := (step_at_decode_of_isFrame hs hf).trans (exec_decode s.window s)
  -- The arrays stay opaque, so that no later step evaluates the pair scan.
  generalize horizontalOf Config.bitOrder s.window = h at he hdecode
  generalize verticalOf Config.bitOrder s.window = v at he hdecode
  have hestimate := (step_at_estimate (enter_stage s (.estimate h v))).trans (exec_estimate h v _)
  rw [← he] at hestimate
  have hedge := (step_at_edge (enter_stage (s.enter (.estimate h v)) (.edge e)) rfl rfl).trans
    (exec_decodeEdge _ _ _)
  rw [runSteps_succ 2 hdecode, runSteps_succ 1 hestimate, runSteps_succ 0 hedge]
  simp only [runSteps, State.finishEdge, enter_stage, inFlight_edge, hself]
  rfl

/-! ### The statements -/

/-- Settles O8: one step lemma per place; the four EDGE rows are the decoder's reading of the two bits. -/
theorem stepInsidePushRunsRow : Obligations.StepInsidePushRunsRow := by
  unfold Obligations.StepInsidePushRunsRow
  intro s
  refine ⟨fun _ => step_at_shift, step_at_validate, step_at_decode_of_isFrame, step_at_decode_of_not_isFrame,
    fun _ _ => step_at_estimate, fun e hs => ?_⟩
  exact ⟨step_at_edge hs, step_at_edge hs, step_at_edge hs, step_at_edge hs⟩

/-- Settles O27: SHIFT and VALIDATE by their meanings, then either VALIDATE has ended the `PUSH`, or the three steps
from DECODE do. -/
theorem pushIsItsInternalOperations : Obligations.PushIsItsInternalOperations := by
  unfold Obligations.PushIsItsInternalOperations
  intro s b
  have hshift := (step_at_shift (s := { s with stage := .shift b }) rfl).trans (exec_shift b _)
  have hvalidate := step_at_validate
    (enter_stage (State.setWindow { s with stage := .shift b } (shiftWindow s.window b)) .validate)
  have hframe := pushBeat_of_validate b s
  have hother := pushBeat_of_not_validate b s
  rw [exec_push]
  generalize shiftWindow s.window b = w at hshift hvalidate hframe hother ⊢
  constructor
  · intro hf
    have hv := (validate_iff_isFrame w).mpr hf
    have hdecode := hvalidate.trans (exec_validate_of_true w _ hv)
    obtain ⟨e, he⟩ := exists_eq (a' := estimate (horizontalOf Config.bitOrder w) (verticalOf Config.bitOrder w))
    rw [runSteps_succ 4 hshift, runSteps_succ 3 hdecode, hframe hv e he]
    exact runSteps_from_decode _ rfl hf e he
  · intro hf
    have hv := (validate_eq_false_iff w).mpr hf
    have hend := hvalidate.trans (exec_validate_of_false w _ hv)
    rw [runSteps_succ 1 hshift, runSteps_succ 0 hend, hother hv]
    rfl

/-- Settles O43: the axis maps read a window only through `bit`, at the same byte under both orders. -/
theorem msbOrderMirrorsBytes : Obligations.MsbOrderMirrorsBytes := by
  unfold Obligations.MsbOrderMirrorsBytes
  intro w
  constructor
  · unfold horizontalOf
    congr 1
    funext x
    simp only [horizontalBit, Vector.getElem_map, bit_msb0 _ _ (Nat.mod_lt _ (by decide))]
  · unfold verticalOf
    congr 1
    funext k
    simp only [verticalBit, Vector.getElem_map, bit_msb0 _ _ (Nat.mod_lt _ (by decide))]

/-- Settles O7: `step` is `exec` of the decoded word, and `fetch` and `advance` at the two kinds of place. -/
theorem stepRunsDecoded : Obligations.StepRunsDecoded := by
  unfold Obligations.StepRunsDecoded
  exact ⟨step_of_decode, fun s hs => ⟨fetch_boundary s hs, advance_boundary s hs⟩, advance_inside⟩

/-- Settles O23: the meaning of each operation, with VALIDATE's answer read as `IsFrame`. -/
theorem internalOperationsHandOn : Obligations.InternalOperationsHandOn := by
  unfold Obligations.InternalOperationsHandOn
  intro s
  refine ⟨?shift, ?validateFrame, ?validateOther, ?decode, ?estimate⟩
  case shift => intro b; rw [exec_shift, State.enter, State.setWindow]
  case validateFrame => exact fun w hf => exec_validate_of_true w s ((validate_iff_isFrame w).mpr hf)
  case validateOther => exact fun w hf => exec_validate_of_false w s ((validate_eq_false_iff w).mpr hf)
  case decode => exact fun w => exec_decode w s
  case estimate => intro h v; rw [exec_estimate, State.enter]

end Sys2Proof.Machine
end

section
/-! # State: the invariant, the whole output beat of a cycle, and what runs keep

First the facts later proofs need (the ranges of the pair scan, the consistent output beats, what a beat reads and
writes, runs without a RESET, runs and observations in parts), then the statements O13, O29, O34, O14, O56, O15 and
O28. -/

namespace Sys2Proof.Machine

/-! ### The ranges of an estimate (rules R128, R131, R133) -/

/-- A box whose corners are ordered and lie on the two axes. -/
structure Box.OnAxes (b : Box) : Prop where
  minX_le : b.minX ≤ b.maxX
  maxX_le : b.maxX ≤ 47
  minY_le : b.minY ≤ b.maxY
  maxY_le : b.maxY ≤ 75

theorem Box.visit_onAxes {b : Option Box} (hb : ∀ c ∈ b, c.OnAxes) {x y : Nat} (hx : x ≤ 47) (hy : y ≤ 75) :
    (Box.visit b x y).OnAxes := by
  cases b with
  | none => exact ⟨le_rfl, hx, le_rfl, hy⟩
  | some c =>
    obtain ⟨h₁, h₂, h₃, h₄⟩ := hb c rfl
    refine ⟨?_, ?_, ?_, ?_⟩ <;> simp only [Box.visit] <;> omega

theorem scanPair_onAxes (h : Horizontal) (v : Vertical) {b : Option Box} (hb : ∀ c ∈ b, c.OnAxes)
    (x : Fin 48) (y : Fin 76) : ∀ c ∈ scanPair h v b x y, c.OnAxes := by
  rw [scanPair_eq]
  split
  · rintro c ⟨⟩
    exact Box.visit_onAxes hb (by omega) (by omega)
  · exact hb

theorem scanPairs_onAxes (h : Horizontal) (v : Vertical) : ∀ c ∈ scanPairs h v, c.OnAxes := by
  rw [scanPairs_eq_foldl]
  refine List.foldlRecOn (motive := fun b : Option Box => ∀ c ∈ b, c.OnAxes) _ _ (by simp) ?_
  exact fun b hb p _ => scanPair_onAxes h v hb p.1 p.2

/-- The sums of a box on the axes fit their fields (rule R131). -/
theorem Box.OnAxes.toEstimate_inRange {b : Box} (hb : b.OnAxes) : b.toEstimate.InRange := by
  obtain ⟨h₁, h₂, h₃, h₄⟩ := hb
  constructor <;> simp [Box.toEstimate] <;> omega

theorem inactive_inRange : Estimate.inactive.InRange := by
  constructor <;> simp [Estimate.inactive]

theorem estimate_inRange (h : Horizontal) (v : Vertical) : (estimate h v).InRange := by
  obtain ⟨-, he⟩ | ⟨b, hb, he⟩ := estimate_cases h v
  · exact he ▸ inactive_inRange
  · exact he ▸ (scanPairs_onAxes h v b hb).toEstimate_inRange

/-- An estimate in its ranges is reported by the EDGE row of its own `active` as it is (rule R133). -/
theorem Estimate.InRange.withActive_self {e : Estimate} (he : e.InRange) : e.withActive e.active = e := by
  cases ha : e.active with
  | false => exact (he.inactive ha).symm
  | true => exact Machine.withActive_self e ha

/-! ### The consistent output beats (rules R30, R65, R66, R153) -/

theorem zero_consistent (held : Bool) : OutBeat.zero.Consistent held := by
  constructor <;> simp [OutBeat.zero, Event.code]

theorem syncLossBeat_consistent (held : Bool) : syncLossBeat.Consistent held := by
  constructor <;> simp [syncLossBeat, OutBeat.zero, Event.code]

theorem Event.code_ne_reserved (ev : Event) : ev.code ≠ 3 := by
  cases ev <;> decide

theorem edge_code_eq_press {held a : Bool} (h : (edge held a).2.code = Event.press.code) : a = true := by
  revert h; cases held <;> cases a <;> decide

theorem edge_code_eq_release {held a : Bool} (h : (edge held a).2.code = Event.release.code) : a = false := by
  revert h; cases held <;> cases a <;> decide

/-- The beat of a frame is consistent with the `held` that EDGE leaves (rule R153). -/
theorem frameBeat_consistent {e : Estimate} (he : e.InRange) (held : Bool) :
    (frameBeat e (edge held e.active).2).Consistent e.active where
  silent h := absurd h (by simp)
  notFrame h := absurd h (by simp)
  inactive h := by
    simp only [frameBeat_active] at h
    simp [he.inactive h, Estimate.inactive]
  maxX_le := he.maxX_le
  maxY_le := he.maxY_le
  minX_le := he.minX_le
  minY_le := he.minY_le
  xNum_eq := he.xNum_eq
  yNum_eq := he.yNum_eq
  notReserved := Event.code_ne_reserved _
  press h := edge_code_eq_press h
  release h := ⟨rfl, edge_code_eq_release h⟩
  level _ := rfl

/-! ### What a beat writes -/

/-- The two ends of a `PUSH`: its window is a frame, with some estimate in its ranges, or it is not (rules R82, R92). -/
theorem pushBeat_cases (b : Byte) (s : State) :
    (IsFrame (shiftWindow s.window b) ∧ ∃ e : Estimate, e.InRange ∧
      pushBeat b s = s.latch (shiftWindow s.window b) e.active (frameBeat e (edge s.held e.active).2)) ∨
    (¬ IsFrame (shiftWindow s.window b) ∧
      pushBeat b s = s.latch (shiftWindow s.window b) s.held syncLossBeat) := by
  have hframe := pushBeat_of_validate b s
  have hother := pushBeat_of_not_validate b s
  -- The window and the estimate stay opaque, so that no later step evaluates the shift or the pair scan.
  generalize shiftWindow s.window b = w at hframe hother ⊢
  have hin := estimate_inRange (horizontalOf Config.bitOrder w) (verticalOf Config.bitOrder w)
  generalize estimate (horizontalOf Config.bitOrder w) (verticalOf Config.bitOrder w) = e at hin hframe
  cases hv : validate w with
  | true => exact .inl ⟨(validate_iff_isFrame w).mp hv, e, hin, hframe hv e rfl⟩
  | false => exact .inr ⟨(validate_eq_false_iff w).mp hv, hother hv⟩

theorem pushBeat_consistent (b : Byte) (s : State) : (pushBeat b s).out.Consistent (pushBeat b s).held := by
  obtain ⟨-, e, he, h⟩ | ⟨-, h⟩ := pushBeat_cases b s
  · simpa only [h, latch_out, latch_held] using frameBeat_consistent he s.held
  · simpa only [h, latch_out, latch_held] using syncLossBeat_consistent s.held

theorem pushBeat_outValid (b : Byte) (s : State) : (pushBeat b s).out.outValid = true := by
  obtain ⟨-, e, -, h⟩ | ⟨-, h⟩ := pushBeat_cases b s <;> rw [h] <;> rfl

theorem pushBeat_frameOk_iff (b : Byte) (s : State) :
    (pushBeat b s).out.frameOk = true ↔ IsFrame (pushBeat b s).window := by
  obtain ⟨hf, e, -, h⟩ | ⟨hf, h⟩ := pushBeat_cases b s <;> simp [h, hf]

/-- A `PUSH` that completes no frame shows nothing of its window (rules R31, R92). -/
theorem pushBeat_ports_of_not_isFrame (b : Byte) (s : State) (h : ¬ IsFrame (shiftWindow s.window b)) :
    (pushBeat b s).ports = { beat := syncLossBeat, held := s.held } := by
  rw [pushBeat_of_not_validate b s ((validate_eq_false_iff _).mpr h), State.ports, latch_out, latch_held]

/-! ### What a beat reads -/

/-- A beat reads `W` and `held` alone: neither `O` nor the beats still to come have a part in what it does (R20). -/
theorem exec_decodeBeat_reads_window_held (w : Beat) (s : State) :
    ∃ t : State, t.stage = .boundary ∧
      ∀ ws o, exec (decodeBeat w) { s with input := ws, out := o } = .next { t with input := ws } := by
  unfold decodeBeat
  split
  · exact ⟨State.reset, rfl, fun _ _ => rfl⟩
  · split
    · obtain ⟨-, -, hstage⟩ := pushBeat_frame (w.extractLsb' 0 8) s
      exact ⟨_, hstage, fun ws o => by rw [exec_push, pushBeat_other_input]⟩
    · exact ⟨s.latch s.window s.held OutBeat.zero, rfl, fun _ _ => rfl⟩

/-- A cycle reads its own beat, `W` and `held` alone: `exec_decodeBeat_reads_window_held` with the beat on the pins. -/
theorem step_beat_reads_window_held (w : Beat) (s : State) (hs : s.stage = .boundary) :
    ∃ t : State, t.stage = .boundary ∧
      ∀ ws o, step { s with input := w :: ws, out := o } = .next { t with input := ws } := by
  obtain ⟨t, ht, hexec⟩ := exec_decodeBeat_reads_window_held w s
  exact ⟨t, ht, fun ws o => (step_at_boundary { s with input := w :: ws, out := o } hs).trans (hexec ws o)⟩

/-! ### What a cycle leaves -/

/-- A step answers one state. The equation leaves that state as it is named, so that nothing evaluates it. -/
theorem eq_of_step_eq_next {s t u : State} (hu : step s = .next u) (ht : step s = .next t) : t = u :=
  (Host.Outcome.next.inj (hu.symm.trans ht)).symm

section Cycle
variable {s t : State}

/-- The state a cycle leaves: `step_cases` of the state that `step` answers. -/
theorem step_next_cases (hs : s.stage = .boundary) (h : step s = .next t) :
    (s.pins.getLsbD 9 = true ∧ pushedByte s.pins = none ∧ t = { State.reset with input := s.input.tail }) ∨
    (s.pins.getLsbD 9 = false ∧ pushedByte s.pins = none ∧
      t = { s with out := OutBeat.zero, input := s.input.tail }) ∨
    (∃ b, s.pins.getLsbD 9 = false ∧ pushedByte s.pins = some b ∧
      t = pushBeat b { s with input := s.input.tail }) := by
  obtain ⟨h9, hp, hstep⟩ | ⟨h9, hp, hstep⟩ | ⟨b, h9, hp, hstep⟩ := step_cases s hs
  · exact .inl ⟨h9, hp, eq_of_step_eq_next hstep h⟩
  · exact .inr (.inl ⟨h9, hp, eq_of_step_eq_next hstep h⟩)
  · exact .inr (.inr ⟨b, h9, hp, eq_of_step_eq_next hstep h⟩)

/-- A cycle ends between two cycles and takes the beat on the pins (rules R12, R160). -/
theorem step_boundary_frame (hs : s.stage = .boundary) (h : step s = .next t) :
    t.stage = .boundary ∧ t.input = s.input.tail := by
  obtain ⟨-, -, ht⟩ | ⟨-, -, ht⟩ | ⟨b, -, -, ht⟩ := step_next_cases hs h <;> rw [ht]
  · exact ⟨rfl, rfl⟩
  · exact ⟨hs, rfl⟩
  · obtain ⟨-, hinput, hstage⟩ := pushBeat_frame b { s with input := s.input.tail }
    exact ⟨hstage, hinput⟩

/-- A cycle writes a consistent output beat, whatever `O` held (rule R30). -/
theorem step_boundary_consistent (hs : s.stage = .boundary) (h : step s = .next t) : t.out.Consistent t.held := by
  obtain ⟨-, -, ht⟩ | ⟨-, -, ht⟩ | ⟨b, -, -, ht⟩ := step_next_cases hs h <;> rw [ht]
  · exact zero_consistent _
  · exact zero_consistent _
  · exact pushBeat_consistent b _

/-- A cycle reports exactly when it is a `PUSH` (rules R30, R81, R82, R87). -/
theorem step_boundary_outValid_iff (hs : s.stage = .boundary) (h : step s = .next t) :
    t.out.outValid = true ↔ (pushedByte s.pins).isSome = true := by
  obtain ⟨-, hp, ht⟩ | ⟨-, hp, ht⟩ | ⟨b, -, hp, ht⟩ := step_next_cases hs h <;> rw [hp, ht]
  · simp
  · simp
  · simp [pushBeat_outValid]

/-- A cycle reports a frame exactly when it is a `PUSH` whose shifted window is one (rules R84, R92). -/
theorem step_boundary_frameOk_iff (hs : s.stage = .boundary) (h : step s = .next t) :
    t.out.frameOk = true ↔ (pushedByte s.pins).isSome = true ∧ IsFrame t.window := by
  obtain ⟨-, hp, ht⟩ | ⟨-, hp, ht⟩ | ⟨b, -, hp, ht⟩ := step_next_cases hs h <;> rw [hp, ht]
  · simp
  · simp
  · simp [pushBeat_frameOk_iff]

end Cycle

/-! ### The invariant at the places of a PUSH -/

/-- Between two cycles the invariant is the output register's consistency. -/
theorem inv_of_boundary {s : State} (hs : s.stage = .boundary) (ho : s.out.Consistent s.held) : s.Inv :=
  ⟨ho, by rw [hs]; trivial⟩

theorem inv_enter {s : State} {st : Stage} (ho : s.out.Consistent s.held) (hst : st.Legal s.window) :
    (s.enter st).Inv :=
  ⟨ho, hst⟩

/-- A SHIFT writes the window alone, and VALIDATE comes next (rules R83, R84). -/
theorem step_shift_inv {s t : State} {b : Byte} (hs : s.stage = .shift b) (ho : s.out.Consistent s.held)
    (h : step s = .next t) : t.Inv := by
  rw [eq_of_step_eq_next ((step_at_shift hs).trans (exec_shift b s)) h]
  generalize shiftWindow s.window b = w
  exact inv_enter (s := s.setWindow w) ho trivial

/-- A VALIDATE hands a frame on to DECODE, and ends the `PUSH` of any other window. -/
theorem step_validate_inv {s t : State} (hs : s.stage = .validate) (ho : s.out.Consistent s.held)
    (h : step s = .next t) : t.Inv := by
  have hstep := step_at_validate hs
  cases hv : validate s.window with
  | true =>
    rw [eq_of_step_eq_next (hstep.trans (exec_validate_of_true _ s hv)) h]
    exact inv_enter ho hv
  | false =>
    rw [eq_of_step_eq_next (hstep.trans (exec_validate_of_false _ s hv)) h]
    exact inv_of_boundary rfl (syncLossBeat_consistent s.held)

/-- A DECODE that runs changes nothing but the place (rule R117). -/
theorem step_decode_inv {s t : State} (hs : s.stage = .decode) (hf : IsFrame s.window)
    (ho : s.out.Consistent s.held) (h : step s = .next t) : t.Inv := by
  rw [eq_of_step_eq_next ((step_at_decode_of_isFrame hs hf).trans (exec_decode _ s)) h]
  exact inv_enter ho trivial

/-- An ESTIMATE hands on an estimate in its ranges (rule R131). -/
theorem step_estimate_inv {s t : State} {hor : Horizontal} {ver : Vertical} (hs : s.stage = .estimate hor ver)
    (ho : s.out.Consistent s.held) (h : step s = .next t) : t.Inv := by
  rw [eq_of_step_eq_next ((step_at_estimate hs).trans (exec_estimate hor ver s)) h]
  exact inv_enter ho (estimate_inRange hor ver)

/-- The EDGE row that runs reports the estimate in flight with the `held` it leaves (rule R153). -/
theorem step_edge_inv {s t : State} {e : Estimate} (hs : s.stage = .edge e) (he : e.InRange)
    (h : step s = .next t) : t.Inv := by
  rw [eq_of_step_eq_next ((step_at_edge hs rfl rfl).trans (exec_decodeEdge s.held e.active s)) h]
  refine inv_of_boundary (finishEdge_stage ..) ?_
  simpa only [finishEdge_out, finishEdge_held, hs, inFlight_edge, he.withActive_self]
    using frameBeat_consistent he s.held

/-! ### The event bits of the packed output beat (rule R65) -/

theorem pack_event (o : OutBeat) : o.pack.extractLsb' 3 2 = o.event := by
  rw [OutBeat.pack, BitVec.extractLsb'_append_eq_of_le (by decide), BitVec.extractLsb'_append_eq_of_le (by decide),
    BitVec.extractLsb'_append_eq_of_le (by decide)]
  exact BitVec.extractLsb'_append_eq_right

/-! ### Cycles without a RESET -/

theorem nextBytes_succ (k : Nat) {s t : State} (ht : t.input = s.input.tail) :
    nextBytes (k + 1) s = (pushedByte s.pins).toList ++ nextBytes k t := by
  unfold nextBytes pushedBytes State.pins
  rw [ht]
  cases s.input with
  | nil => simp [show pushedByte idleWord = none from rfl]
  | cons w ws => cases hw : pushedByte w <;> simp [hw]

theorem noReset_succ {k : Nat} {s t : State} (ht : t.input = s.input.tail) (h : NoReset (k + 1) s) :
    s.pins.getLsbD 9 = false ∧ NoReset k t := by
  unfold NoReset State.pins at *
  rw [ht]
  cases hi : s.input with
  | nil => exact ⟨rfl, by simp⟩
  | cons w ws => simpa [hi, isResetBeat] using h

/-- What the cycles of a run without a RESET keep: induction over the number of cycles, each from a state between two
cycles, with the beat on its pins taken. -/
theorem noReset_run_induction
    {motive : ∀ (k : Nat) (s : State), s.stage = .boundary → NoReset k s → Prop}
    (zero : ∀ s hs hr, motive 0 s hs hr)
    (succ : ∀ k s t hs hr ht hr', s.pins.getLsbD 9 = false → step s = .next t → t.input = s.input.tail →
      motive k t ht hr' → motive (k + 1) s hs hr)
    (k : Nat) (s : State) (hs : s.stage = .boundary) (hr : NoReset k s) : motive k s hs hr := by
  induction k generalizing s with
  | zero => exact zero s hs hr
  | succ k ih =>
    obtain ⟨t, hstep⟩ : ∃ t, step s = .next t := by
      obtain ⟨-, -, h⟩ | ⟨-, -, h⟩ | ⟨b, -, -, h⟩ := step_cases s hs <;> exact ⟨_, h⟩
    obtain ⟨ht, hinput⟩ := step_boundary_frame hs hstep
    obtain ⟨h9, hr'⟩ := noReset_succ hinput hr
    exact succ k s t hs hr ht hr' h9 hstep hinput (ih t ht hr')

/-- One cycle without a RESET drops as many of the oldest bytes as it appends (rules R81, R83). -/
theorem step_window_toList {s t : State} (hs : s.stage = .boundary) (h9 : s.pins.getLsbD 9 = false)
    (h : step s = .next t) :
    t.window.toList =
      (s.window.toList ++ (pushedByte s.pins).toList).drop (pushedByte s.pins).toList.length := by
  obtain ⟨hrst, -, -⟩ | ⟨-, hp, ht⟩ | ⟨b, -, hp, ht⟩ := step_next_cases hs h
  · cases h9.symm.trans hrst
  · simp [hp, ht]
  · obtain ⟨hw, -, -⟩ := pushBeat_frame b { s with input := s.input.tail }
    rw [hp, ht, hw, shiftWindow_toList]
    simp [List.drop_append_of_le_length]

/-! ### Counting the events (rules R151, R152) -/

theorem countEvent_cons (ev : Event) (o : OutBeat) (os : List OutBeat) :
    countEvent ev (o :: os) = countEvent ev [o] + countEvent ev os := by
  rw [countEvent, countEvent, countEvent, ← List.singleton_append, List.countP_append]

/-- EDGE moves `held` by the event it answers: up with PRESS, down with RELEASE. -/
theorem edge_balance (held a : Bool) :
    held.toNat + (if (edge held a).2.code == Event.press.code then 1 else 0) =
      a.toNat + if (edge held a).2.code == Event.release.code then 1 else 0 := by
  cases held <;> cases a <;> rfl

/-- A `PUSH` moves `held` by the event it reports. -/
theorem pushBeat_balance (b : Byte) (s : State) :
    s.held.toNat + countEvent .press [(pushBeat b s).out] =
      (pushBeat b s).held.toNat + countEvent .release [(pushBeat b s).out] := by
  obtain ⟨-, e, -, h⟩ | ⟨-, h⟩ := pushBeat_cases b s
  · simpa [h, countEvent, List.countP_cons] using edge_balance s.held e.active
  · simp [h, countEvent, Event.code]

/-- One cycle without a RESET moves `held` by the event it reports. -/
theorem step_balance {s t : State} (hs : s.stage = .boundary) (h9 : s.pins.getLsbD 9 = false)
    (h : step s = .next t) :
    s.held.toNat + countEvent .press [t.out] = t.held.toNat + countEvent .release [t.out] := by
  obtain ⟨hrst, -, -⟩ | ⟨-, -, ht⟩ | ⟨b, -, -, ht⟩ := step_next_cases hs h
  · cases h9.symm.trans hrst
  · simp [ht, countEvent, Event.code]
  · rw [ht]
    exact pushBeat_balance b { s with input := s.input.tail }

/-- Over any cycles without a RESET, from Released or Held, `held` moves by the events reported. -/
theorem runSteps_balance (k : Nat) (s : State) (hs : s.stage = .boundary) (hr : NoReset k s) :
    ∃ t, runSteps k s = .next t ∧
      s.held.toNat + countEvent .press (outputs k s) = t.held.toNat + countEvent .release (outputs k s) := by
  induction k, s, hs, hr using noReset_run_induction with
  | zero s hs hr => exact ⟨s, rfl, rfl⟩
  | succ k s t hs hr ht hr' h9 hstep hinput ih =>
    obtain ⟨u, hu, hbalance⟩ := ih
    have hone := step_balance hs h9 hstep
    refine ⟨u, (runSteps_succ k hstep).trans hu, ?_⟩
    rw [outputs_succ k hstep, countEvent_cons .press, countEvent_cons .release]
    omega

/-! ### Runs and observations in parts (rule R190) -/

/-- What steps do and show is split at any number of them. -/
theorem runSteps_outputs_add (k m : Nat) {s t : State} (h : runSteps k s = .next t) :
    runSteps (k + m) s = runSteps m t ∧ outputs (k + m) s = outputs k s ++ outputs m t := by
  induction k generalizing s with
  | zero =>
    cases h
    simp [outputs]
  | succ k ih =>
    rw [Nat.add_right_comm]
    cases hstep : step s with
    | next u =>
      rw [runSteps_succ k hstep] at h
      obtain ⟨hrun, hout⟩ := ih h
      rw [runSteps_succ _ hstep, outputs_succ _ hstep, outputs_succ k hstep, hrun, hout, List.cons_append]
      exact ⟨rfl, rfl⟩
    | fault f => simp [runSteps, hstep] at h
    | refused r => simp [runSteps, hstep] at h

/-- What steps show is what the first of them show, followed by what the others show. -/
theorem observe_add (k m : Nat) {s t : State} (h : runSteps k s = .next t) :
    observe (k + m) s =
      (observe m t).map fun o => { o with beats := (outputs k s).filter OutBeat.outValid ++ o.beats } := by
  obtain ⟨hrun, hout⟩ := runSteps_outputs_add k m h
  unfold observe
  rw [hrun, hout]
  cases runSteps m t <;> simp

/-- One cycle shows its output beat exactly where it is a `PUSH` (rule R51). -/
theorem observe_one {s t : State} (hs : s.stage = .boundary) (h : step s = .next t) :
    observe 1 s = some
      { beats := if (pushedByte s.pins).isSome then [t.out] else [], window := t.window, held := t.held } := by
  rw [observe_of_runSteps 1 (runSteps_succ 0 h), outputs_succ 0 h, outputs]
  simp only [List.filter_singleton, Bool.cond_eq_ite, step_boundary_outValid_iff hs h]

/-- Beats at the head of the input run, and show, the same whatever beats come after them (rule R184). -/
theorem runSteps_outputs_of_append (ws : List Beat) (s : State) (hs : s.stage = .boundary) :
    ∃ (t : State) (os : List OutBeat), t.stage = .boundary ∧ ∀ rest,
      runSteps ws.length { s with input := ws ++ rest } = .next { t with input := rest } ∧
      outputs ws.length { s with input := ws ++ rest } = os := by
  induction ws generalizing s with
  | nil => exact ⟨s, [], hs, fun _ => ⟨rfl, rfl⟩⟩
  | cons w ws ih =>
    obtain ⟨t, ht, hstep⟩ := step_beat_reads_window_held w s hs
    obtain ⟨u, os, hu, hrest⟩ := ih t ht
    refine ⟨u, t.out :: os, hu, fun rest => ?_⟩
    have hfirst := hstep (ws ++ rest) s.out
    obtain ⟨hrun, hout⟩ := hrest rest
    exact ⟨(runSteps_succ _ hfirst).trans hrun, (outputs_succ _ hfirst).trans (congrArg _ hout)⟩

/-! ### The statements -/

/-- Settles O13, by the place the machine stands at. -/
theorem stepKeepsInvariant : Obligations.StepKeepsInvariant := by
  unfold Obligations.StepKeepsInvariant
  intro s t ⟨ho, hlegal⟩ h
  cases hs : s.stage with
  | boundary =>
    obtain ⟨hstage, -⟩ := step_boundary_frame hs h
    exact inv_of_boundary hstage (step_boundary_consistent hs h)
  | shift b => exact step_shift_inv hs ho h
  | validate => exact step_validate_inv hs ho h
  | decode =>
    rw [hs] at hlegal
    exact step_decode_inv hs ((validate_iff_isFrame _).mp hlegal) ho h
  | estimate hor ver => exact step_estimate_inv hs ho h
  | edge e =>
    rw [hs] at hlegal
    exact step_edge_inv hs hlegal h

/-- Settles O29: each cycle drops as many bytes as it appends, and what later cycles append comes behind. -/
theorem windowIsLastBytes : Obligations.WindowIsLastBytes := by
  unfold Obligations.WindowIsLastBytes
  intro k s hs hr
  induction k, s, hs, hr using noReset_run_induction with
  | zero s hs hr => exact ⟨s, rfl, by simp [nextBytes, pushedBytes]⟩
  | succ k s t hs hr ht hr' h9 hstep hinput ih =>
    obtain ⟨u, hu, hw⟩ := ih
    refine ⟨u, (runSteps_succ k hstep).trans hu, ?_⟩
    rw [hw, step_window_toList hs h9 hstep, nextBytes_succ k hinput, ← List.drop_append_of_le_length (by simp),
      List.drop_drop, List.append_assoc, List.length_append]

/-- Settles O34: from Released the balance of the events is the next `held` itself. -/
theorem heldCountsEvents : Obligations.HeldCountsEvents := by
  unfold Obligations.HeldCountsEvents
  intro k s hs hheld hr
  obtain ⟨t, ht, hbalance⟩ := runSteps_balance k s hs hr
  rw [hheld, Bool.toNat_false] at hbalance
  have hle := t.held.toNat_le
  refine ⟨t, ht, ?_⟩
  rw [← Bool.toNat_eq_one]
  refine ⟨?_, ?_, ?_⟩ <;> omega

/-- Settles O14: RESET and IDLE leave the zero beat, a `PUSH` its own, and the event bits are a consistent beat's. -/
theorem everyBeatWritesOutput : Obligations.EveryBeatWritesOutput := by
  unfold Obligations.EveryBeatWritesOutput
  intro s t hs h
  have hout := step_boundary_consistent hs h
  exact ⟨hout, step_boundary_outValid_iff hs h, step_boundary_frameOk_iff hs h,
    (pack_event t.out).symm ▸ hout.notReserved⟩

/-- Settles O56: the beats before the last run as they do alone, and the last one reads `W` and `held` alone. -/
theorem observationGrowsByOneBeat : Obligations.ObservationGrowsByOneBeat := by
  unfold Obligations.ObservationGrowsByOneBeat
  refine ⟨rfl, fun ws w o x ho => ?_⟩
  obtain ⟨v, hv, hwindow, hheld, hbeats⟩ := exists_runSteps_of_observe _ ho
  obtain ⟨t, os, ht, hrest⟩ := runSteps_outputs_of_append ws State.reset rfl
  obtain ⟨halone, houts⟩ := hrest []
  obtain ⟨hrun, houts'⟩ := hrest [w]
  rw [List.append_nil] at halone houts
  obtain rfl : v = { t with input := [] } := Host.Outcome.next.inj (hv.symm.trans halone)
  obtain ⟨u, -, hstep⟩ := step_beat_reads_window_held w t ht
  have hlast := hstep [] t.out
  refine ⟨{ u with input := [] }, ?last, ?observed⟩
  case last =>
    rw [hwindow, hheld, ← ht]
    exact hstep [] x
  case observed =>
    have hone := observe_one (s := { t with input := [w] }) ht hlast
    rw [observation, List.length_append, List.length_singleton, observe_add _ 1 hrun, hone, houts', hbeats, houts]
    rfl

/-- Settles O15: the beat on the pins is the same, and what it does does not depend on `O`. -/
theorem noBeatReadsOutput : Obligations.NoBeatReadsOutput := by
  unfold Obligations.NoBeatReadsOutput
  intro s o hs
  obtain ⟨t, -, ht⟩ := exec_decodeBeat_reads_window_held s.pins s
  rw [step_at_boundary { s with out := o } hs, step_at_boundary s hs]
  exact (ht s.input.tail o).trans (ht s.input.tail s.out).symm

/-- Settles O28: both pushes end with the beat of rule R92, and keep their equal `held`. -/
theorem failedWindowsLookAlike : Obligations.FailedWindowsLookAlike := by
  unfold Obligations.FailedWindowsLookAlike
  intro s s' b b' hheld hf hf'
  refine ⟨_, _, exec_push b s, exec_push b' s', ?_⟩
  rw [pushBeat_ports_of_not_isFrame b s hf, pushBeat_ports_of_not_isFrame b' s' hf', hheld]

end Sys2Proof.Machine
end

section
/-! # Runs: every beat completes, and every sequence of beats is observed

First the facts later proofs need (a cycle answers a next state, how many beats any number of cycles take and show),
then the statements O10 and O55. -/

namespace Sys2Proof.Machine

/-- Each of the three beats of a cycle answers a next state (rule R160). -/
theorem exists_step_of_boundary {s : State} (hs : s.stage = .boundary) : ∃ t, step s = .next t := by
  obtain ⟨-, -, h⟩ | ⟨-, -, h⟩ | ⟨b, -, -, h⟩ := step_cases s hs <;> exact ⟨_, h⟩

/-- The beat of one cycle counts as valid exactly where the cycle pushes a byte (rule R51). -/
theorem countP_outValid_singleton {s t : State} (hs : s.stage = .boundary) (h : step s = .next t) :
    [t.out].countP OutBeat.outValid = (pushedByte s.pins).toList.length := by
  have hiff := step_boundary_outValid_iff hs h
  cases hp : pushedByte s.pins <;> simpa [hp] using hiff

/-- Any number of cycles completes between two cycles, takes one beat each, and leaves one valid output beat per byte
pushed (rules R48, R51). -/
theorem runSteps_of_boundary (k : Nat) (s : State) (hs : s.stage = .boundary) :
    ∃ t, runSteps k s = .next t ∧ t.stage = .boundary ∧ t.input = s.input.drop k ∧
      (outputs k s).countP OutBeat.outValid = (nextBytes k s).length := by
  induction k generalizing s with
  | zero => exact ⟨s, rfl, hs, rfl, by simp [outputs, nextBytes, pushedBytes]⟩
  | succ k ih =>
    obtain ⟨t, hstep⟩ := exists_step_of_boundary hs
    obtain ⟨ht, hinput⟩ := step_boundary_frame hs hstep
    obtain ⟨u, hrun, hu, hdrop, hcount⟩ := ih t ht
    refine ⟨u, (runSteps_succ k hstep).trans hrun, hu, ?taken, ?shown⟩
    case taken => rw [hdrop, hinput, List.drop_tail]
    case shown =>
      rw [outputs_succ k hstep, ← List.singleton_append, List.countP_append, countP_outValid_singleton hs hstep,
        hcount, nextBytes_succ k hinput, List.length_append]

/-! ### The statements -/

/-- Settles O10: a cycle answers a next state, and that state stands between two cycles with its beat taken. -/
theorem everyBeatCompletes : Obligations.EveryBeatCompletes := by
  unfold Obligations.EveryBeatCompletes
  intro s hs
  obtain ⟨t, hstep⟩ := exists_step_of_boundary hs
  exact ⟨t, hstep, step_boundary_frame hs hstep⟩

/-- Settles O55: from reset, as many cycles as there are beats take them all; what is observed are the valid ones of
the output beats they leave. -/
theorem runIsObserved : Obligations.RunIsObserved := by
  unfold Obligations.RunIsObserved
  intro ws
  obtain ⟨t, hrun, hstage, hinput, hcount⟩ := runSteps_of_boundary ws.length { State.reset with input := ws } rfl
  refine ⟨t, _, hrun, ?ended, hstage, observe_of_runSteps _ hrun, rfl, rfl, ?count, ?valid⟩
  case ended => rw [hinput, List.drop_length]
  case count => rw [← List.countP_eq_length_filter, hcount, nextBytes, List.take_length]
  case valid => exact fun b hb => (List.mem_filter.mp hb).right

end Sys2Proof.Machine
end

section
/-! # Encoding: words and the operations they stand for, and the windows that are frames

First the facts later proofs need (the bits of a beat, `decode` against `encode`, the packed output beat, the placed
table words, the entries of a frame, the magic inside a window), then the statements O3, O2, O4, O6, O9, O32, O38, O39,
O41, O42, O1, O5, O16 and O18. -/

namespace Sys2Proof.Machine

/-! ### Bits of a word -/

/-- A bit is the one-bit slice at its place. -/
theorem ofBool_getLsbD {n : Nat} (w : BitVec n) (i : Nat) : BitVec.ofBool (w.getLsbD i) = w.extractLsb' i 1 := by
  apply BitVec.eq_of_getLsbD_eq
  intro j hj
  obtain rfl : j = 0 := by omega
  simp

/-- Two neighbouring bits are the two-bit slice at the lower of them. -/
theorem ofBool_append_ofBool {n : Nat} (w : BitVec n) (i : Nat) :
    BitVec.ofBool (w.getLsbD (i + 1)) ++ BitVec.ofBool (w.getLsbD i) = w.extractLsb' i 2 := by
  rw [ofBool_getLsbD, ofBool_getLsbD]
  exact BitVec.extractLsb'_append_extractLsb'_eq_extractLsb' rfl

/-- The words with a given top part are as many as there are low parts. -/
theorem card_extractLsb'_eq {m n : Nat} (p : BitVec m) :
    Nat.card {w : BitVec (m + n) // w.extractLsb' n m = p} = 2 ^ n := by
  have hbij : Function.Bijective fun low : BitVec n =>
      (⟨p ++ low, BitVec.extractLsb'_append_eq_left⟩ : {w : BitVec (m + n) // w.extractLsb' n m = p}) := by
    constructor
    · intro low low' h
      exact (BitVec.append_right_inj p).mp (congrArg Subtype.val h)
    · rintro ⟨w, rfl⟩
      exact ⟨w.extractLsb' 0 n, Subtype.ext BitVec.extractLsb'_append_extractLsb'⟩
  rw [← Nat.card_eq_of_bijective _ hbij, Nat.card_congr BitVec.equivFin.toEquiv, Nat.card_fin]

/-! ### The three beats (rules R55, R56) -/

theorem decodeBeat_of_rst {w : Beat} (h9 : w.getLsbD 9 = true) : decodeBeat w = .reset := by
  simp only [decodeBeat, h9, if_true]

theorem decodeBeat_of_idle {w : Beat} (h9 : w.getLsbD 9 = false) (h8 : w.getLsbD 8 = false) :
    decodeBeat w = .idle := by
  simp only [decodeBeat, h9, h8, Bool.false_eq_true, if_false]

theorem decodeBeat_of_valid {w : Beat} (h9 : w.getLsbD 9 = false) (h8 : w.getLsbD 8 = true) :
    decodeBeat w = .push (w.extractLsb' 0 8) := by
  simp only [decodeBeat, h9, h8, Bool.false_eq_true, if_false, if_true]

theorem decodeBeat_pushWord (b : Byte) : decodeBeat (pushWord b) = .push b := by
  rw [decodeBeat_of_valid (pushWord_rst b) (pushWord_valid b), pushWord_byte]

/-- A beat with `01` in its two top bits is the word of a `PUSH` (rule R55). -/
theorem pushWord_of_selector {w : Beat} (h : w.extractLsb' 8 2 = 1#2) : pushWord (w.extractLsb' 0 8) = w := by
  rw [pushWord, ← h]
  exact BitVec.extractLsb'_append_extractLsb'

theorem pushWord_of_valid {w : Beat} (h9 : w.getLsbD 9 = false) (h8 : w.getLsbD 8 = true) :
    pushWord (w.extractLsb' 0 8) = w := by
  apply pushWord_of_selector
  rw [← ofBool_append_ofBool w 8, h9, h8]
  rfl

/-- Everything a beat can decode to, with the bits that select it (rule R56). -/
theorem decodeBeat_cases (w : Beat) :
    (w.getLsbD 9 = true ∧ decodeBeat w = .reset) ∨
    (w.getLsbD 9 = false ∧ w.getLsbD 8 = false ∧ decodeBeat w = .idle) ∨
    (w.getLsbD 9 = false ∧ w.getLsbD 8 = true ∧ ∃ b, w = pushWord b ∧ decodeBeat w = .push b) := by
  cases h9 : w.getLsbD 9 with
  | true => exact .inl ⟨rfl, decodeBeat_of_rst h9⟩
  | false =>
    cases h8 : w.getLsbD 8 with
    | false => exact .inr (.inl ⟨rfl, rfl, decodeBeat_of_idle h9 h8⟩)
    | true => exact .inr (.inr ⟨rfl, rfl, _, (pushWord_of_valid h9 h8).symm, decodeBeat_of_valid h9 h8⟩)

theorem decodeBeat_eq_reset_iff (w : Beat) : decodeBeat w = .reset ↔ w.extractLsb' 9 1 = 1#1 := by
  rw [← ofBool_getLsbD]
  obtain ⟨h9, h⟩ | ⟨h9, -, h⟩ | ⟨h9, -, b, -, h⟩ := decodeBeat_cases w <;> rw [h9, h] <;> simp

theorem decodeBeat_eq_idle_iff (w : Beat) : decodeBeat w = .idle ↔ w.extractLsb' 8 2 = 0#2 := by
  rw [← ofBool_append_ofBool w 8]
  obtain ⟨h9, h⟩ | ⟨h9, h8, h⟩ | ⟨h9, h8, b, -, h⟩ := decodeBeat_cases w
  · rw [h9, h]
    cases w.getLsbD 8 <;> simp
  · rw [h9, h8, h]
    simp
  · rw [h9, h8, h]
    simp

theorem decodeBeat_eq_push_iff (w : Beat) (b : Byte) : decodeBeat w = .push b ↔ w = pushWord b := by
  constructor
  · intro hw
    obtain ⟨-, h⟩ | ⟨-, -, h⟩ | ⟨-, -, c, hc, h⟩ := decodeBeat_cases w
    · cases h.symm.trans hw
    · cases h.symm.trans hw
    · cases h.symm.trans hw
      exact hc
  · rintro rfl
    exact decodeBeat_pushWord b

/-- A cycle runs the operation its beat decodes to, and reads the beat in no other way. -/
theorem step_beat (s : State) (w : Beat) (rest : List Beat) :
    step { s with input := w :: rest, stage := .boundary } =
      exec (decodeBeat w) { s with input := rest, stage := .boundary } :=
  step_at_boundary _ rfl

/-! ### `decode` and `encode` (rules R57, R73) -/

/-- A word that decodes at the SHIFT step is the word of its `PUSH`. -/
theorem decodeShift_eq_ok {w : Beat} {i : Instr} (h : decodeShift w = .ok i) :
    i = .shift (w.extractLsb' 0 8) ∧ pushWord (w.extractLsb' 0 8) = w := by
  unfold decodeShift at h
  split at h
  · next hsel =>
    cases h
    exact ⟨rfl, pushWord_of_selector hsel⟩
  · cases h

/-- A word that decodes at the DECODE step is the packed form of a window VALIDATE accepts (rule R110). -/
theorem decodeWindow_eq_ok {fw : FrameWord} {i : Instr} (h : decodeWindow fw = .ok i) :
    i = .decode (unpackWindow fw) ∧ validate (unpackWindow fw) = true := by
  unfold decodeWindow at h
  split at h
  · next hv =>
    cases h
    exact ⟨rfl, hv⟩
  · cases h

/-- The EDGE rows are the four words of two bits: none is refused, and none is read twice (rule R145). -/
theorem encode_decodeEdge (w : BitVec 2) : encode (decodeEdge w) = .edge w := by
  revert w; decide

theorem decodeEdge_wellFormed (w : BitVec 2) : (decodeEdge w).wellFormed = true := by
  revert w; decide

theorem decodeEdge_format (w : BitVec 2) : (decodeEdge w).format = .edge := by
  revert w; decide

/-! ### The packed output beat (rule R65) -/

/-- Packing the fields of a word puts its slices together again, from the top. -/
theorem pack_unpack (w : BitVec 46) : (OutBeat.unpack w).pack = w := by
  simp only [OutBeat.pack, OutBeat.unpack, ofBool_getLsbD]
  iterate 9 rw [BitVec.extractLsb'_append_extractLsb'_eq_extractLsb' (by decide)]
  exact BitVec.extractLsb'_eq_self

theorem bitVec_append_inj {m n : Nat} {a a' : BitVec m} {b b' : BitVec n} (h : a ++ b = a' ++ b') :
    a = a' ∧ b = b' := by
  constructor
  · rw [← BitVec.extractLsb'_append_eq_left (a := a) (b := b), h, BitVec.extractLsb'_append_eq_left]
  · rw [← BitVec.extractLsb'_append_eq_right (a := a) (b := b), h, BitVec.extractLsb'_append_eq_right]

/-- Equal packed beats have equal fields, taken off one by one from the bottom. -/
theorem pack_injective : Function.Injective OutBeat.pack := by
  intro o o' h
  unfold OutBeat.pack at h
  obtain ⟨h, hvalid⟩ := bitVec_append_inj h
  obtain ⟨h, hok⟩ := bitVec_append_inj h
  obtain ⟨h, hactive⟩ := bitVec_append_inj h
  obtain ⟨h, hevent⟩ := bitVec_append_inj h
  obtain ⟨h, hminX⟩ := bitVec_append_inj h
  obtain ⟨h, hmaxX⟩ := bitVec_append_inj h
  obtain ⟨h, hminY⟩ := bitVec_append_inj h
  obtain ⟨h, hmaxY⟩ := bitVec_append_inj h
  obtain ⟨hyNum, hxNum⟩ := bitVec_append_inj h
  rw [BitVec.ofBool_eq_iff_eq] at hvalid hok hactive
  cases o
  cases o'
  rw [OutBeat.mk.injEq]
  exact ⟨hvalid, hok, hactive, hevent, hminX, hmaxX, hminY, hmaxY, hxNum, hyNum⟩

theorem unpack_pack (o : OutBeat) : OutBeat.unpack o.pack = o := pack_injective (pack_unpack o.pack)

/-! ### Placed table words (rule R73) -/

/-- A word placed where its operation is read is the word `fetch` reads there. -/
theorem fetch_placeWord (s : State) {o : OpWord} {i : Instr} (h : decode o = .ok i) : fetch (placeWord s o) = o := by
  cases o with
  | beat w => rfl
  | shift w =>
    obtain ⟨-, hw⟩ := decodeShift_eq_ok h
    exact congrArg OpWord.shift hw
  | validate fw => exact congrArg OpWord.validate (packWindow_unpackWindow fw)
  | decode fw => exact congrArg OpWord.decode (packWindow_unpackWindow fw)
  | bitmaps w => exact congrArg OpWord.bitmaps (packBitmaps_bitmaps w)
  | edge w => exact congrArg OpWord.edge ((ofBool_append_ofBool w 0).trans BitVec.extractLsb'_eq_self)

/-- An operation read from a table word is decoded from one of the six formats. -/
theorem tableWord_of_decodeTableWord {nbits w : Nat} {i : Instr} (h : decodeTableWord nbits w = some i) :
    ∃ o, tableWord nbits w = some o ∧ decode o = .ok i := by
  unfold decodeTableWord at h
  split at h
  · next o ho =>
    refine ⟨o, ho, ?_⟩
    cases hd : decode o with
    | ok j => rw [hd] at h; cases h; rfl
    | error e => rw [hd] at h; cases h
  · cases h

/-! ### The entries of a frame (rules R58 to R60, R70) -/

theorem frameWindow_magic (p : Payload) (c : Byte) :
    (frameWindow p c)[0] = 0x55 ∧ (frameWindow p c)[1] = 0x54 ∧ (frameWindow p c)[2] = 0x4C := by
  simp only [frameWindow]
  refine ⟨?_, ?_, ?_⟩ <;>
    rw [Vector.getElem_append_left (by decide), Vector.getElem_append_left (by decide)] <;> rfl

theorem frameWindow_payload (p : Payload) (c : Byte) (j : Nat) (hj : j < 17) : (frameWindow p c)[3 + j] = p[j] := by
  simp only [frameWindow]
  rw [Vector.getElem_append_left (by omega), Vector.getElem_append_right (by omega) (by omega)]
  simp

theorem frameWindow_checksum (p : Payload) (c : Byte) : (frameWindow p c)[20] = c := by
  simp [frameWindow]

theorem payloadOf_frameWindow (p : Payload) (c : Byte) : payloadOf (frameWindow p c) = p := by
  apply Vector.ext
  intro j hj
  rw [payloadOf_getElem _ _ hj, frameWindow_payload _ _ _ hj]

/-- A window is its magic, its payload and its check byte (rules R58 to R60). -/
theorem frameWindow_payloadOf {w : Window} (h : magicOk w = true) :
    frameWindow (payloadOf w) (checksumByte w) = w := by
  obtain ⟨h0, h1, h2⟩ := (magicOk_eq_true_iff w).mp h
  obtain ⟨f0, f1, f2⟩ := frameWindow_magic (payloadOf w) (checksumByte w)
  apply Vector.ext
  intro i hi
  obtain hlt | ⟨j, hj, rfl⟩ | rfl : i < 3 ∨ (∃ j, j < 17 ∧ i = 3 + j) ∨ i = 20 := by
    by_cases hlt : i < 3
    · exact .inl hlt
    · by_cases heq : i = 20
      · exact .inr (.inr heq)
      · exact .inr (.inl ⟨i - 3, by omega, by omega⟩)
  · interval_cases i
    · exact f0.trans h0.symm
    · exact f1.trans h1.symm
    · exact f2.trans h2.symm
  · rw [frameWindow_payload _ _ _ hj, payloadOf_getElem _ _ hj]
  · exact frameWindow_checksum _ _

theorem validate_goodFrame (p : Payload) : validate (goodFrame p) = true := by
  rw [validate_eq_true, magicOk_eq_true_iff, goodFrame, payloadOf_frameWindow, checksumByte, frameWindow_checksum]
  exact ⟨frameWindow_magic _ _, rfl⟩

/-- A frame is the frame of its payload (rule R70). -/
theorem goodFrame_payloadOf {w : Window} (h : validate w = true) : goodFrame (payloadOf w) = w := by
  obtain ⟨hm, hc⟩ := (validate_eq_true w).mp h
  rw [goodFrame, hc, frameWindow_payloadOf hm]

/-- Frames are payloads: each payload has one good frame, and each frame is the one of its payload. -/
def frameEquivPayload : {w : Window // validate w = true} ≃ Payload where
  toFun w := payloadOf w.val
  invFun p := ⟨goodFrame p, validate_goodFrame p⟩
  left_inv w := Subtype.ext (goodFrame_payloadOf w.property)
  right_inv p := payloadOf_frameWindow p _

theorem card_vector (α : Type) (n : Nat) : Nat.card (Vector α n) = Nat.card α ^ n := by
  have hbij : Function.Bijective (Vector.ofFn : (Fin n → α) → Vector α n) := by
    constructor
    · intro f g h
      funext i
      simpa using congrArg (fun v => v[i.val]) h
    · exact fun v => ⟨fun i => v[i.val], by ext i hi; simp⟩
  rw [← Nat.card_eq_of_bijective _ hbij, Nat.card_fun, Nat.card_fin]

/-! ### The payload of TOUCH (rules R61, R62, R71) -/

/-- Payload bytes 0 to 10 carry the vertical array backwards, and 0 past its end. -/
theorem touchPayload_vertical (h : Horizontal) (v : Vertical) (j i : Nat) (hj : j < 11) (hi : i < 8) :
    ((touchPayload h v)[j]).getLsbD i = if 8 * j + i ≤ 75 then v[75 - (8 * j + i)] else false := by
  rw [touchPayload, Vector.getElem_ofFn, getLsbD_bitsOf _ _ _ hi]
  simp [hj]

/-- Payload bytes 11 to 16 carry the horizontal array. -/
theorem touchPayload_horizontal (h : Horizontal) (v : Vertical) (x : Nat) (hx : x < 48) :
    ((touchPayload h v)[11 + x / 8]).getLsbD (x % 8) = h[x] := by
  rw [touchPayload, Vector.getElem_ofFn, getLsbD_bitsOf _ _ _ (by omega)]
  have : 8 * (x / 8) + x % 8 = x := Nat.div_add_mod x 8
  simp [this]

/-! ### How soon a window can be a frame again (rules R58, R83) -/

/-- None of entries 1 to `n` is the first magic byte, so none of the next `n` pushes can complete a frame. -/
def NoMagicWithin (n : Nat) (w : Window) : Prop := ∀ (i : Nat) (_ : i < 21), 1 ≤ i → i ≤ n → w[i] ≠ 0x55

/-- The second and third magic bytes are not the first. -/
theorem IsFrame.noMagicWithin {w : Window} (h : IsFrame w) : NoMagicWithin 2 w := by
  obtain ⟨-, h1, h2, -⟩ := h
  intro i hi hlo hhi
  obtain rfl | rfl : i = 1 ∨ i = 2 := by omega
  · rw [h1]; decide
  · rw [h2]; decide

/-- A push moves entry 1 to the front, where a frame would have the first magic byte. -/
theorem NoMagicWithin.after_push {n : Nat} {w : Window} (h : NoMagicWithin (n + 1) w) (hn : n < 20) (b : Byte) :
    ¬ IsFrame (shiftWindow w b) ∧ NoMagicWithin n (shiftWindow w b) := by
  constructor
  · rintro ⟨h0, -⟩
    rw [shiftWindow_getElem _ _ _ (by omega), dif_pos (by omega)] at h0
    exact h 1 (by omega) le_rfl (by omega) h0
  · intro i hi hlo hhi
    rw [shiftWindow_getElem _ _ _ hi, dif_pos (by omega)]
    exact h (i + 1) (by omega) (by omega) (by omega)

/-- Cycles without a RESET report no frame while they push no more bytes than the window has entries free of the first
magic byte at its front. -/
theorem outputs_frameOk_of_noMagicWithin (k : Nat) (s : State) (hs : s.stage = .boundary) (hr : NoReset k s) :
    ∀ n ≤ 20, NoMagicWithin n s.window → (nextBytes k s).length ≤ n → ∀ o ∈ outputs k s, o.frameOk = false := by
  induction k, s, hs, hr using noReset_run_induction with
  | zero s hs hr => simp [outputs]
  | succ k s t hs hr ht hr' h9 hstep hinput ih =>
    intro n hn hw hlen
    rw [outputs_succ k hstep, List.forall_mem_cons]
    rw [nextBytes_succ k hinput, List.length_append] at hlen
    obtain ⟨hrst, -, -⟩ | ⟨-, hp, hidle⟩ | ⟨b, -, hp, hpush⟩ := step_next_cases hs hstep
    · cases h9.symm.trans hrst
    · rw [hp, Option.toList_none, List.length_nil, Nat.zero_add] at hlen
      have hwindow : t.window = s.window := by rw [hidle]
      exact ⟨by rw [hidle]; rfl, ih n hn (hwindow.symm ▸ hw) hlen⟩
    · rw [hp, Option.toList_some, List.length_singleton] at hlen
      obtain ⟨m, rfl⟩ : ∃ m, n = m + 1 := ⟨n - 1, by omega⟩
      obtain ⟨hwindow, -, -⟩ := pushBeat_frame b { s with input := s.input.tail }
      obtain ⟨hframe, hrest⟩ := hw.after_push hn b
      rw [← hwindow, ← hpush] at hframe hrest
      constructor
      · rw [← Bool.not_eq_true, hpush, pushBeat_frameOk_iff, ← hpush]
        exact hframe
      · exact ih m (by omega) hrest (by omega)

/-! ### The statements -/

/-- Settles O3, operation by operation: each word's decoder reads the operands the encoder packed; DECODE's window is
accepted because the operation is well formed. -/
theorem decodeOfEncode : Obligations.DecodeOfEncode := by
  unfold Obligations.DecodeOfEncode
  intro i hi
  cases i with
  | reset => rfl
  | idle => rfl
  | push b => exact congrArg Except.ok (decodeBeat_pushWord b)
  | shift b => exact decode_shift_pushWord b
  | validate w => exact decode_validate_packWindow w
  | decode w => exact decode_decode_of_isFrame w ((validate_iff_isFrame w).mp hi)
  | estimate h v => exact decode_bitmaps_packBitmaps h v
  | edgePress => rfl
  | edgeRelease => rfl
  | edgeStayReleased => rfl
  | edgeStayHeld => rfl

/-- Settles O2: RESET is its top bit, IDLE its two top bits, and the rest of the word is free; a PUSH is its word. -/
theorem beatPatternCounts : Obligations.BeatPatternCounts := by
  unfold Obligations.BeatPatternCounts
  simp only [decodeBeat_eq_reset_iff, decodeBeat_eq_idle_iff, decode, Except.ok.injEq, decodeBeat_eq_push_iff]
  exact ⟨card_extractLsb'_eq (n := 9) 1#1, card_extractLsb'_eq (n := 8) 0#2, fun b => ⟨pushWord b, rfl, fun _ h => h⟩⟩

/-- Settles O4, format by format: the word is put together again from the operands the decoder read. -/
theorem encodeOfDecode : Obligations.EncodeOfDecode := by
  unfold Obligations.EncodeOfDecode
  intro o i h
  cases o with
  | beat w =>
    cases h
    obtain ⟨h9, hw⟩ | ⟨h9, h8, hw⟩ | ⟨-, -, b, rfl, hw⟩ := decodeBeat_cases w <;> rw [hw]
    · refine ⟨rfl, rfl, fun hpush => ?_⟩
      cases h9.symm.trans (hpush w rfl).left
    · refine ⟨rfl, rfl, fun hpush => ?_⟩
      cases h8.symm.trans (hpush w rfl).right
    · exact ⟨rfl, rfl, fun _ => rfl⟩
  | shift w =>
    obtain ⟨rfl, hw⟩ := decodeShift_eq_ok h
    exact ⟨rfl, rfl, fun _ => congrArg OpWord.shift hw⟩
  | validate fw =>
    cases h
    exact ⟨rfl, rfl, fun _ => congrArg OpWord.validate (packWindow_unpackWindow fw)⟩
  | decode fw =>
    obtain ⟨rfl, hv⟩ := decodeWindow_eq_ok h
    exact ⟨hv, rfl, fun _ => congrArg OpWord.decode (packWindow_unpackWindow fw)⟩
  | bitmaps w =>
    cases h
    exact ⟨rfl, rfl, fun _ => congrArg OpWord.bitmaps (packBitmaps_bitmaps w)⟩
  | edge w =>
    cases h
    exact ⟨decodeEdge_wellFormed w, decodeEdge_format w, fun _ => encode_decodeEdge w⟩

/-- Settles O6: the fields of a word pack to the word, and packing loses no field. -/
theorem outBeatPackUnpack : Obligations.OutBeatPackUnpack := by
  unfold Obligations.OutBeatPackUnpack
  exact ⟨unpack_pack, pack_unpack⟩

/-- Settles O9: `fetch` reads the placed word, which decodes to the operation. -/
theorem placedTableWordRuns : Obligations.PlacedTableWordRuns := by
  unfold Obligations.PlacedTableWordRuns
  intro s nbits w i h
  obtain ⟨o, ho, hd⟩ := tableWord_of_decodeTableWord h
  have hplace : s.withFetchWord nbits w = placeWord s o := by
    simp only [State.withFetchWord, placeTableWord, ho]
  rw [hplace]
  exact step_of_decode _ i (by rw [fetch_placeWord s hd, hd])

/-- Settles O32: the second and third magic bytes hold off a frame for two pushes; a payload that begins with the magic
is at the front after three. -/
theorem framesAtLeastThreePushesApart : Obligations.FramesAtLeastThreePushesApart := by
  unfold Obligations.FramesAtLeastThreePushesApart
  constructor
  · intro k s hs hf hr hlen
    exact outputs_frameOk_of_noMagicWithin k s hs hr 2 (by decide) hf.noMagicWithin hlen
  · refine ⟨#v[0x55, 0x54, 0x4C, 0x55, 0x54, 0x4C, 0, 0, 0, 0, 0, 0, 0, 0, 0, 0, 0, 0, 0, 0, 0x94], 0, 0, 0x33, ?_, ?_⟩
    · exact (validate_iff_isFrame _).mp (by decide)
    · exact (validate_iff_isFrame _).mp (by decide +kernel)

/-- Settles O38: the two tests of `classify` are the two halves of `IsFrame`. -/
theorem windowClasses : Obligations.WindowClasses := by
  unfold Obligations.WindowClasses
  intro w
  rw [← magicOk_eq_true_iff, ← validate_iff_isFrame, validate_eq_true]
  by_cases hm : magicOk w = true
  · by_cases hc : checksum (payloadOf w) = checksumByte w
    · simp [classify, hm, hc]
    · simp [classify, hm, hc]
  · simp [classify, hm]

/-- Settles O39: a frame is its 17 payload bytes. -/
theorem frameCount : Obligations.FrameCount := by
  unfold Obligations.FrameCount
  calc Nat.card {w : Window // validate w = true}
      = Nat.card Payload := Nat.card_congr frameEquivPayload
    _ = Nat.card (Fin (2 ^ 8)) ^ 17 := by rw [card_vector, Nat.card_congr BitVec.equivFin.toEquiv]
    _ = 2 ^ 136 := by rw [Nat.card_fin, ← Nat.pow_mul]

/-- Settles O41: the horizontal entries lie in bytes 14 and up; the vertical ones in bytes up to 12, and of that one in
bits below 4. -/
theorem unusedBitsAreIgnored : Obligations.UnusedBitsAreIgnored := by
  unfold Obligations.UnusedBitsAreIgnored Config.bitOrder
  intro w w' hbytes hbits
  constructor
  · apply Vector.ext
    intro x hx
    rw [horizontalOf_getElem _ _ hx, horizontalOf_getElem _ _ hx, hbytes _ _ (by omega) (by omega)]
  · apply Vector.ext
    intro k hk
    rw [verticalOf_getElem _ _ hk, verticalOf_getElem _ _ hk]
    by_cases h12 : 3 + (75 - k) / 8 = 12
    · simp only [h12]
      exact hbits _ (by omega)
    · rw [hbytes _ _ h12 (by omega)]

/-- Settles O42: the axis maps read the payload bits where TOUCH put them. -/
theorem touchFrameDecodesBack : Obligations.TouchFrameDecodesBack := by
  unfold Obligations.TouchFrameDecodesBack Config.bitOrder
  intro h v
  have hbyte : ∀ (j : Nat) (hj : j < 17), (touchFrame h v)[3 + j] = (touchPayload h v)[j] :=
    fun j hj => frameWindow_payload _ _ j hj
  refine ⟨(validate_iff_isFrame _).mp (validate_goodFrame _), ?byte13, ?byte12, ?horizontal, ?vertical⟩
  case byte13 =>
    apply BitVec.eq_of_getLsbD_eq
    intro i hi
    rw [hbyte 10 (by decide), touchPayload_vertical _ _ _ _ (by decide) hi, if_neg (by omega)]
    simp
  case byte12 =>
    intro k hk
    by_cases hk8 : k < 8
    · rw [hbyte 9 (by decide), touchPayload_vertical _ _ _ _ (by decide) hk8, if_neg (by omega)]
    · exact BitVec.getLsbD_of_ge _ _ (by omega)
  case horizontal =>
    apply Vector.ext
    intro x hx
    rw [horizontalOf_getElem _ _ hx, ← touchPayload_horizontal h v x hx, ← hbyte _ (by omega)]
    congr 2
    omega
  case vertical =>
    apply Vector.ext
    intro k hk
    rw [verticalOf_getElem _ _ hk, hbyte _ (by omega), touchPayload_vertical _ _ _ _ (by omega) (by omega),
      if_pos (by omega)]
    congr 1
    omega

/-- Settles O1, by the three patterns. -/
theorem beatDecodeByPattern : Obligations.BeatDecodeByPattern := by
  unfold Obligations.BeatDecodeByPattern
  intro w
  exact ⟨fun h9 => congrArg Except.ok (decodeBeat_of_rst h9),
    fun h9 h8 => congrArg Except.ok (decodeBeat_of_idle h9 h8),
    fun h9 h8 => congrArg Except.ok (decodeBeat_of_valid h9 h8)⟩

/-- Settles O5, word by word. -/
theorem specWordsDecode : Obligations.SpecWordsDecode := by
  unfold Obligations.SpecWordsDecode
  exact ⟨rfl, rfl, rfl, rfl, rfl, rfl, rfl, rfl, rfl⟩

/-- Settles O16: both beats decode to the same operation, and `step` reads no more of them. -/
theorem ignoredPinsChangeNothing : Obligations.IgnoredPinsChangeNothing := by
  unfold Obligations.IgnoredPinsChangeNothing
  intro s w w' rest h
  have hdecode : decodeBeat w = decodeBeat w' := by
    obtain ⟨h9, h9'⟩ | ⟨⟨h9, h8⟩, h9', h8'⟩ := h
    · rw [decodeBeat_of_rst h9, decodeBeat_of_rst h9']
    · rw [decodeBeat_of_idle h9 h8, decodeBeat_of_idle h9' h8']
  rw [step_beat, step_beat, hdecode]

/-- Settles O18: of the three beats of a cycle, `rst` leaves RESET alone. -/
theorem resetWinsOverByte : Obligations.ResetWinsOverByte := by
  unfold Obligations.ResetWinsOverByte
  intro s hs h9
  rw [step_at_boundary s hs, decodeBeat_of_rst h9, exec_reset]
  rfl

end Sys2Proof.Machine
end

section
/-! # Synchronizer: what each beat writes, frames in the stream, and what a run shows of its beats

First the facts later proofs need (the meanings of a beat, the beats on the pins, the window after a stream, runs seen
beat by beat, the box of a pair set and the estimate in closed form), then the statements O31, O21, O22, O24, O25, O26,
O30, O54, O57, O58, O17, O20 and O52. -/

namespace Sys2Proof.Machine

/-! ### The meanings of a beat (rules R81 to R84, R87, R92) -/

/-- A `PUSH` that completes the frame `F`: `held` and the event by the touch of `F` (rules R82, R86). -/
theorem pushBeat_of_isFrame {b : Byte} {s : State} {F : Window} (hw : shiftWindow s.window b = F) (hF : IsFrame F)
    (e : Estimate) (he : e = estimate (horizontalOf Config.bitOrder F) (verticalOf Config.bitOrder F)) :
    pushBeat b s = s.latch F e.active (frameBeat e (edge s.held e.active).2) := by
  subst hw
  exact pushBeat_of_validate b s ((validate_iff_isFrame _).mpr hF) e he

/-- The newest byte of the shifted window is the byte pushed (rules R83, R86). -/
theorem shiftWindow_last (w : Window) (b : Byte) : (shiftWindow w b)[20] = b := by
  rw [shiftWindow_getElem _ _ _ (by decide), dif_neg (by decide)]

/-- Shifting in a list of bytes leaves the last 21 of the old window followed by the list (rule R83). -/
theorem foldl_shiftWindow_toList (w : Window) (bs : List Byte) :
    (bs.foldl shiftWindow w).toList = (w.toList ++ bs).drop bs.length := by
  induction bs generalizing w with
  | nil => simp
  | cons b bs ih =>
    rw [List.foldl_cons, ih, shiftWindow_toList, List.append_assoc, List.singleton_append, List.length_cons,
      ← List.drop_append_of_le_length (by simp), List.drop_drop, Nat.add_comm]

/-- A cycle whose pins are `rst = 0` and `in_valid = 0` clears the output register and takes its beat (rule R81). -/
theorem step_of_idle {s : State} (hs : s.stage = .boundary) (h9 : s.pins.getLsbD 9 = false)
    (h8 : s.pins.getLsbD 8 = false) : step s = .next { s with out := OutBeat.zero, input := s.input.tail } := by
  rw [step_at_boundary s hs, decodeBeat_of_idle h9 h8, exec_idle, State.latch]
  simp only [hs]

/-- A cycle with the word of a `PUSH` on its pins is that `PUSH` (rule R82). -/
theorem step_of_pushWord {s : State} {b : Byte} {rest : List Beat} (hs : s.stage = .boundary)
    (hinput : s.input = pushWord b :: rest) : step s = .next (pushBeat b { s with input := rest }) := by
  rw [step_at_boundary s hs, State.pins, hinput, decodeBeat_pushWord, exec_push, List.tail_cons]

/-! ### The beats on the pins -/

/-- Where the next beats are IDLE the first cycle is an IDLE, also past the end of the input, where the pins read
IDLE (rules R55, R81, log entry 1). -/
theorem step_of_forall_idle {s : State} {k : Nat} (hs : s.stage = .boundary)
    (h : ∀ w ∈ s.input.take (k + 1), w.getLsbD 9 = false ∧ w.getLsbD 8 = false) :
    step s = .next { s with out := OutBeat.zero, input := s.input.tail } := by
  have hpins : s.pins.getLsbD 9 = false ∧ s.pins.getLsbD 8 = false := by
    unfold State.pins
    cases hi : s.input with
    | nil => exact ⟨rfl, rfl⟩
    | cons w ws => exact h w (by simp [hi])
  exact step_of_idle hs hpins.left hpins.right

theorem pushedByte_of_rst {w : Beat} (h9 : w.getLsbD 9 = true) : pushedByte w = none := by
  simp only [pushedByte, h9, if_true]

theorem pushedByte_of_idle {w : Beat} (h9 : w.getLsbD 9 = false) (h8 : w.getLsbD 8 = false) :
    pushedByte w = none := by
  simp only [pushedByte, h9, h8, Bool.false_eq_true, if_false]

theorem pushedByte_of_valid {w : Beat} (h9 : w.getLsbD 9 = false) (h8 : w.getLsbD 8 = true) :
    pushedByte w = some (w.extractLsb' 0 8) := by
  simp only [pushedByte, h9, h8, Bool.false_eq_true, if_false, if_true]

theorem pushedByte_pushWord (b : Byte) : pushedByte (pushWord b) = some b := by
  rw [pushedByte_of_valid (pushWord_rst b) (pushWord_valid b), pushWord_byte]

/-- The beats of a window push its bytes (rule R70). -/
theorem pushedBytes_windowBeats (F : Window) : pushedBytes (windowBeats F) = F.toList := by
  have hpush : pushedByte ∘ pushWord = some := funext pushedByte_pushWord
  rw [pushedBytes, windowBeats, List.filterMap_map, hpush, List.filterMap_some]

theorem windowBeats_length (F : Window) : (windowBeats F).length = 21 := by
  simp [windowBeats]

theorem windowBeats_noReset (F : Window) : ∀ w ∈ windowBeats F, isResetBeat w = false := by
  unfold windowBeats
  simp only [List.forall_mem_map]
  exact fun b _ => pushWord_rst b

theorem windowBeats_getLast? (F : Window) : (windowBeats F).getLast? = some (pushWord F[20]) := by
  simp [windowBeats, List.getLast?_eq_getElem?]

/-! ### A frame in the stream (rules R85, R89) -/

/-- Steps that end in a state begin with one that does. -/
theorem exists_step_of_runSteps_succ {k : Nat} {s t : State} (h : runSteps (k + 1) s = .next t) :
    ∃ u, step s = .next u ∧ runSteps k u = .next t := by
  cases hstep : step s with
  | next u => exact ⟨u, rfl, (runSteps_succ k hstep).symm.trans h⟩
  | fault f => simp [runSteps, hstep] at h
  | refused r => simp [runSteps, hstep] at h

/-- The output register that steps end with is among the output beats they leave (rule R51). -/
theorem out_mem_outputs {k : Nat} {s t : State} (h : runSteps (k + 1) s = .next t) : t.out ∈ outputs (k + 1) s := by
  induction k generalizing s with
  | zero =>
    obtain ⟨u, hstep, hrun⟩ := exists_step_of_runSteps_succ h
    obtain rfl : u = t := Host.Outcome.next.inj hrun
    rw [outputs_succ 0 hstep]
    exact List.mem_cons_self
  | succ k ih =>
    obtain ⟨u, hstep, hrun⟩ := exists_step_of_runSteps_succ h
    rw [outputs_succ _ hstep]
    exact List.mem_cons_of_mem _ (ih hrun)

/-- Cycles that push the 21 bytes of a window, with no RESET among them, leave that window (rule R85). -/
theorem window_of_nextBytes {k : Nat} {s t : State} {F : Window} (hs : s.stage = .boundary) (hr : NoReset k s)
    (hbytes : nextBytes k s = F.toList) (h : runSteps k s = .next t) : t.window = F := by
  obtain ⟨u, hu, hw⟩ := windowIsLastBytes k s hs hr
  obtain rfl : t = u := Host.Outcome.next.inj (h.symm.trans hu)
  have hlen : (nextBytes k s).length = s.window.toList.length := by simp [hbytes]
  rw [hlen, List.drop_left, hbytes] at hw
  exact Vector.toList_inj.mp hw

/-! ### How soon a reset window can be a frame -/

/-- A reset window holds no first magic byte that a push could bring to the front (rules R21, R58). -/
theorem resetWindow_noMagicWithin : NoMagicWithin 20 resetWindow := by
  intro i hi hlo hhi
  rw [resetWindow, Vector.getElem_replicate, Config.initFill]
  decide

/-! ### Observations beat by beat (rules R190, R51) -/

/-- Every sequence of beats is observed (rule R190). -/
theorem exists_observation (ws : List Beat) : ∃ o, observation ws = some o := by
  obtain ⟨t, o, -, -, -, ho, -⟩ := runIsObserved ws
  exact ⟨o, ho⟩

/-- The state in which one more beat after an observed run acts: the final `W` and `held`, and that beat on the pins. -/
def Observation.withBeat (o : Observation) (w : Beat) : State :=
  { window := o.window, held := o.held, out := OutBeat.zero, input := [w], stage := .boundary }

/-- One more beat acts on the final `W` and `held` alone, whatever the run before it. -/
theorem observation_concat {ws : List Beat} {w : Beat} {o : Observation} {t : State} (ho : observation ws = some o)
    (hstep : step (o.withBeat w) = .next t) :
    observation (ws ++ [w]) = some
      { beats := o.beats ++ (if (pushedByte w).isSome then [t.out] else []), window := t.window, held := t.held } := by
  obtain ⟨-, hgrow⟩ := observationGrowsByOneBeat
  obtain ⟨u, hu, hobs⟩ := hgrow ws w o OutBeat.zero ho
  rw [hobs, eq_of_step_eq_next hu hstep]

/-- A beat after a run that pushes nothing shows nothing itself. -/
theorem observation_concat_of_none {ws : List Beat} {w : Beat} {o : Observation} {t : State}
    (ho : observation ws = some o) (hpush : pushedByte w = none) (hstep : step (o.withBeat w) = .next t) :
    observation (ws ++ [w]) = some { beats := o.beats, window := t.window, held := t.held } := by
  rw [observation_concat ho hstep, hpush, Option.isSome_none, if_neg Bool.false_ne_true, List.append_nil]

/-- An IDLE beat after a run changes nothing that is observed (rules R81, R171). -/
theorem observation_concat_idle {ws : List Beat} {w : Beat} (h9 : w.getLsbD 9 = false) (h8 : w.getLsbD 8 = false) :
    observation (ws ++ [w]) = observation ws := by
  obtain ⟨o, ho⟩ := exists_observation ws
  rw [ho]
  exact observation_concat_of_none ho (pushedByte_of_idle h9 h8) (step_of_idle rfl h9 h8)

/-- A RESET beat after a run shows nothing itself, and leaves the window and `held` of reset (rule R87). -/
theorem observation_concat_reset {ws : List Beat} {w : Beat} {o : Observation} (ho : observation ws = some o)
    (h9 : w.getLsbD 9 = true) :
    observation (ws ++ [w]) = some { beats := o.beats, window := resetWindow, held := false } :=
  observation_concat_of_none ho (pushedByte_of_rst h9) (resetWinsOverByte (o.withBeat w) rfl h9)

/-- A beat that is neither a RESET nor a `PUSH` is an IDLE (rule R55). -/
theorem idle_of_not_reset_or_push {w : Beat} (h : (isResetBeat w || (pushedByte w).isSome) = false) :
    w.getLsbD 9 = false ∧ w.getLsbD 8 = false := by
  obtain ⟨h9, hpush⟩ := Bool.or_eq_false_iff.mp h
  refine ⟨h9, ?_⟩
  cases h8 : w.getLsbD 8 with
  | false => rfl
  | true => cases (congrArg Option.isSome (pushedByte_of_valid h9 h8)).symm.trans hpush

/-! ### The box of a pair set (rules R126 to R128) -/

/-- The box is the one of the pairs in `P`: the least and the greatest coordinate of each axis (rule R128). -/
structure Box.Bounds (P : Set (ℕ × ℕ)) (b : Box) : Prop where
  minX : IsLeast (Prod.fst '' P) b.minX
  maxX : IsGreatest (Prod.fst '' P) b.maxX
  minY : IsLeast (Prod.snd '' P) b.minY
  maxY : IsGreatest (Prod.snd '' P) b.maxY

/-- What a scan has found after the pairs in `P`: no box while there is none of them, else their box (rule R125). -/
def FoundBox (P : Set (ℕ × ℕ)) : Option Box → Prop
  | none => P = ∅
  | some b => b.Bounds P

/-- A pair that is visited widens the box to itself, or opens it. -/
theorem FoundBox.visit {P : Set (ℕ × ℕ)} {b : Option Box} (hb : FoundBox P b) (x y : ℕ) :
    (Box.visit b x y).Bounds (insert (x, y) P) := by
  cases b with
  | none =>
    obtain rfl : P = ∅ := hb
    constructor <;> simp [Box.visit]
  | some b =>
    obtain ⟨hminX, hmaxX, hminY, hmaxY⟩ := hb
    constructor <;> rw [Set.image_insert_eq, Box.visit]
    · exact min_comm x b.minX ▸ hminX.insert x
    · exact max_comm x b.maxX ▸ hmaxX.insert x
    · exact min_comm y b.minY ▸ hminY.insert y
    · exact max_comm y b.maxY ▸ hmaxY.insert y

/-- The set entries of a bitmap. -/
def setEntries {n : ℕ} (v : Vector Bool n) : Set ℕ := {i | ∃ h : i < n, v[i] = true}

/-- The pairs of a list that count: both their entries are set (rule R126). -/
def countedPairs (h : Horizontal) (v : Vertical) (ps : List (Fin 48 × Fin 76)) : Set (ℕ × ℕ) :=
  {q | ∃ p ∈ ps, (h[p.1.val] = true ∧ v[p.2.val] = true) ∧ q = (p.1.val, p.2.val)}

theorem countedPairs_cons_of_set {h : Horizontal} {v : Vertical} {p : Fin 48 × Fin 76}
    (hp : h[p.1.val] = true ∧ v[p.2.val] = true) (ps : List (Fin 48 × Fin 76)) :
    countedPairs h v (p :: ps) = insert (p.1.val, p.2.val) (countedPairs h v ps) := by
  ext q
  simp [countedPairs, hp]

theorem countedPairs_cons_of_not_set {h : Horizontal} {v : Vertical} {p : Fin 48 × Fin 76}
    (hp : ¬ (h[p.1.val] = true ∧ v[p.2.val] = true)) (ps : List (Fin 48 × Fin 76)) :
    countedPairs h v (p :: ps) = countedPairs h v ps := by
  ext q
  simp only [countedPairs, Set.mem_ofPred_eq, List.mem_cons, or_and_right, exists_or, exists_eq_left, hp, false_and,
    false_or]

/-- A scan over any list of pairs finds the box of the pairs that count, and of those it has found before. -/
theorem foldl_scanPair_foundBox (h : Horizontal) (v : Vertical) (ps : List (Fin 48 × Fin 76)) {P : Set (ℕ × ℕ)}
    {b : Option Box} (hb : FoundBox P b) :
    FoundBox (countedPairs h v ps ∪ P) (ps.foldl (fun b p => scanPair h v b p.1 p.2) b) := by
  induction ps generalizing P b with
  | nil => simpa [countedPairs] using hb
  | cons p ps ih =>
    rw [List.foldl_cons, scanPair_eq]
    by_cases hp : h[p.1.val] = true ∧ v[p.2.val] = true
    · rw [if_pos hp, countedPairs_cons_of_set hp, Set.insert_union, ← Set.union_insert]
      exact ih (b := some _) (hb.visit _ _)
    · rw [if_neg hp, countedPairs_cons_of_not_set hp]
      exact ih hb

/-- The pairs that count, over all positions, are the set entries of one axis by those of the other (rule R129). -/
theorem countedPairs_of_forall_mem (h : Horizontal) (v : Vertical) {ps : List (Fin 48 × Fin 76)} (hps : ∀ p, p ∈ ps) :
    countedPairs h v ps = setEntries h ×ˢ setEntries v := by
  ext ⟨x, y⟩
  constructor
  · rintro ⟨p, -, ⟨hx, hy⟩, hq⟩
    cases hq
    exact ⟨⟨p.1.isLt, hx⟩, ⟨p.2.isLt, hy⟩⟩
  · rintro ⟨⟨hx, hsx⟩, ⟨hy, hsy⟩⟩
    exact ⟨(⟨x, hx⟩, ⟨y, hy⟩), hps _, ⟨hsx, hsy⟩, rfl⟩

/-- The pair scan finds the box of the set entries of the two axes (rules R128, R129). -/
theorem scanPairs_foundBox (h : Horizontal) (v : Vertical) :
    FoundBox (setEntries h ×ˢ setEntries v) (scanPairs h v) := by
  have hall : ∀ p : Fin 48 × Fin 76,
      p ∈ (List.finRange 48).flatMap fun x => (List.finRange 76).map fun y => (x, y) := by simp
  rw [scanPairs_eq_foldl]
  generalize ((List.finRange 48).flatMap fun x => (List.finRange 76).map fun y => (x, y)) = ps at hall ⊢
  rw [← countedPairs_of_forall_mem h v hall, ← Set.union_empty (countedPairs h v ps)]
  exact foldl_scanPair_foundBox h v ps rfl

/-! ### The estimate in closed form (rule R129) -/

theorem estimate_active_iff (h : Horizontal) (v : Vertical) :
    (estimate h v).active = true ↔ (setEntries h).Nonempty ∧ (setEntries v).Nonempty := by
  have hfound := scanPairs_foundBox h v
  rw [← Set.prod_nonempty_iff]
  obtain ⟨hscan, he⟩ | ⟨b, hscan, he⟩ := estimate_cases h v <;> rw [hscan] at hfound <;> rw [he]
  · have hempty : setEntries h ×ˢ setEntries v = ∅ := hfound
    simp [hempty]
  · obtain ⟨q, hq, -⟩ := hfound.minX.left
    exact ⟨fun _ => ⟨q, hq⟩, fun _ => rfl⟩

/-- The corners of a box on the axes fit their fields (rule R131). -/
theorem Box.OnAxes.toEstimate_toNat {b : Box} (hb : b.OnAxes) :
    b.toEstimate.minX.toNat = b.minX ∧ b.toEstimate.maxX.toNat = b.maxX ∧
    b.toEstimate.minY.toNat = b.minY ∧ b.toEstimate.maxY.toNat = b.maxY := by
  obtain ⟨hminX, hmaxX, hminY, hmaxY⟩ := hb
  simp only [Box.toEstimate, BitVec.toNat_ofNat]
  omega

/-- The box fields of a touch are the least and the greatest set entry of each axis. -/
theorem estimate_isLeast_isGreatest {h : Horizontal} {v : Vertical} (ha : (estimate h v).active = true) :
    IsLeast (setEntries h) (estimate h v).minX.toNat ∧ IsGreatest (setEntries h) (estimate h v).maxX.toNat ∧
    IsLeast (setEntries v) (estimate h v).minY.toNat ∧ IsGreatest (setEntries v) (estimate h v).maxY.toNat := by
  obtain ⟨hx, hy⟩ := (estimate_active_iff h v).mp ha
  have hfound := scanPairs_foundBox h v
  obtain ⟨-, he⟩ | ⟨b, hscan, he⟩ := estimate_cases h v
  · rw [he] at ha
    cases ha
  · rw [hscan] at hfound
    obtain ⟨hl, hg, hl', hg'⟩ := hfound
    rw [Set.fst_image_prod _ hy] at hl hg
    rw [Set.snd_image_prod hx] at hl' hg'
    obtain ⟨eminX, emaxX, eminY, emaxY⟩ := (scanPairs_onAxes h v b hscan).toEstimate_toNat
    rw [he, eminX, emaxX, eminY, emaxY]
    exact ⟨hl, hg, hl', hg'⟩

/-! ### The touched positions of the wire bits (rules R111, R112) -/

theorem setEntries_horizontalOf (w : Window) : setEntries (horizontalOf Config.bitOrder w) = {x | HTouched w x} := by
  ext x
  exact exists_congr fun hx => by rw [Config.bitOrder, horizontalOf_getElem w x hx]

theorem setEntries_verticalOf (w : Window) : setEntries (verticalOf Config.bitOrder w) = {y | VTouched w y} := by
  ext y
  exact exists_congr fun hy => by rw [Config.bitOrder, verticalOf_getElem w y hy]

/-- The code of EDGE's event, by the cases of rule R153. -/
theorem edge_snd_code (held a : Bool) :
    (edge held a).2.code =
      if a = true ∧ held = false then 0b01 else if a = false ∧ held = true then 0b10 else 0b00 := by
  cases held <;> cases a <;> rfl

/-! ### The statements -/

/-- Settles O31: the last beat is a `PUSH`, and the window it leaves is the 21 bytes pushed, so it completes the
frame. -/
theorem resynchronization : Obligations.Resynchronization := by
  unfold Obligations.Resynchronization
  intro F ws rest s hF hs hinput hreset hbytes hlast
  have htake : s.input.take ws.length = ws := by rw [hinput, List.take_left]
  have hnoReset : NoReset ws.length s := by rwa [NoReset, htake]
  have hnext : nextBytes ws.length s = F.toList := by rw [nextBytes, htake, hbytes]
  obtain ⟨us, rfl⟩ := List.getLast?_eq_some_iff.mp hlast
  obtain ⟨t, hrun, ht, htaken, -⟩ := runSteps_of_boundary us.length s hs
  rw [hinput, List.append_assoc, List.singleton_append, List.drop_left] at htaken
  have hstep := step_of_pushWord ht htaken
  have hall : runSteps (us ++ [pushWord F[20]]).length s = .next (pushBeat F[20] { t with input := rest }) := by
    rw [List.length_append, List.length_singleton, (runSteps_outputs_add _ 1 hrun).left, runSteps_succ 0 hstep,
      runSteps]
  obtain ⟨hshift, -, -⟩ := pushBeat_frame F[20] { t with input := rest }
  have hwindow := hshift.symm.trans (window_of_nextBytes hs hnoReset hnext hall)
  obtain ⟨e, he⟩ := exists_eq (a' := estimate (horizontalOf Config.bitOrder F) (verticalOf Config.bitOrder F))
  rw [pushBeat_of_isFrame hwindow hF e he] at hall
  rw [← he]
  exact ⟨_, hall, rfl, rfl, rfl, rfl, rfl, _, rfl⟩

/-- A frame pushed byte by byte right after reset is reported (rules R88, R89). -/
theorem windowBeats_reported {F : Window} (hF : IsFrame F) :
    ∃ o ∈ outputs 21 { State.reset with input := windowBeats F }, o.frameOk = true := by
  obtain ⟨t, hrun, -, -, -, -, hok, -⟩ := resynchronization F (windowBeats F) []
    { State.reset with input := windowBeats F } hF rfl (List.append_nil _).symm (windowBeats_noReset F)
    (pushedBytes_windowBeats F) (windowBeats_getLast? F)
  rw [windowBeats_length] at hrun
  exact ⟨t.out, out_mem_outputs hrun, hok⟩

/-- Settles O21, by induction over the cycles: the first is an IDLE, and the others start with the same `W` and
`held`. -/
theorem idleRunKeepsState : Obligations.IdleRunKeepsState := by
  unfold Obligations.IdleRunKeepsState
  intro k s hs h
  induction k generalizing s with
  | zero => rw [runSteps_succ 0 (step_of_forall_idle hs h), runSteps, Nat.zero_add, List.drop_one]
  | succ k ih =>
    have hrest : ∀ w ∈ s.input.tail.take (k + 1), w.getLsbD 9 = false ∧ w.getLsbD 8 = false := by
      rw [← List.drop_one, List.take_drop, Nat.add_comm 1]
      exact fun w hw => h w (List.mem_of_mem_drop hw)
    have hlater := ih { s with out := OutBeat.zero, input := s.input.tail } hs hrest
    rw [runSteps_succ _ (step_of_forall_idle hs h), hlater, List.drop_tail]

/-- Settles O22: SHIFT entry by entry, and after 21 bytes none of the old window is left. -/
theorem shiftMovesWindow : Obligations.ShiftMovesWindow := by
  unfold Obligations.ShiftMovesWindow
  constructor
  · intro s b
    refine ⟨_, exec_shift b s, fun i hi => ?_, ?_, ?_, ?_⟩
    · simp only [enter_window, setWindow_window]
      rw [shiftWindow_getElem _ _ _ (by omega), dif_pos hi]
    · simp only [enter_window, setWindow_window, shiftWindow_last]
    · rw [enter_held, setWindow_held]
    · rw [enter_out, setWindow_out]
  · intro w bs hlen
    rw [foldl_shiftWindow_toList, hlen, List.drop_left' w.length_toList]

/-- Settles O24: the window, its newest byte and the two flags of a `PUSH`, whether it completes a frame or not. -/
theorem pushValidatesShiftedWindow : Obligations.PushValidatesShiftedWindow := by
  unfold Obligations.PushValidatesShiftedWindow
  intro s b
  obtain ⟨hwindow, -, -⟩ := pushBeat_frame b s
  refine ⟨pushBeat b s, exec_push b s, hwindow, ?_, pushBeat_outValid b s, pushBeat_frameOk_iff b s⟩
  rw [hwindow, shiftWindow_last]

/-- Settles O25: a window that is not a frame takes the second branch of a `PUSH`. -/
theorem pushOfNonFrame : Obligations.PushOfNonFrame := by
  unfold Obligations.PushOfNonFrame
  intro s b hf
  rw [exec_push, pushBeat_of_not_validate b s ((validate_eq_false_iff _).mpr hf), State.latch, syncLossBeat,
    OutBeat.zero]

/-- Settles O26: the beat is the estimate of the frame, whose box is the one of the set entries of its two axes. -/
theorem pushOfFrameReportsTouch : Obligations.PushOfFrameReportsTouch := by
  unfold Obligations.PushOfFrameReportsTouch
  intro s b w hw hf
  have hactive := estimate_active_iff (horizontalOf Config.bitOrder w) (verticalOf Config.bitOrder w)
  have hbox := @estimate_isLeast_isGreatest (horizontalOf Config.bitOrder w) (verticalOf Config.bitOrder w)
  have hin := estimate_inRange (horizontalOf Config.bitOrder w) (verticalOf Config.bitOrder w)
  have hpush := pushBeat_of_isFrame hw.symm hf _ rfl
  rw [setEntries_horizontalOf, setEntries_verticalOf] at hactive hbox
  -- The estimate stays opaque, so that no later step evaluates the pair scan.
  generalize estimate (horizontalOf Config.bitOrder w) (verticalOf Config.bitOrder w) = e at hactive hbox hin hpush
  refine ⟨_, (exec_push b s).trans (congrArg _ hpush), rfl, rfl, rfl, rfl, rfl, hactive, rfl,
    edge_snd_code s.held e.active, hbox, hin.xNum_eq, hin.yNum_eq, fun ha => ?inactive⟩
  rw [latch_out, hin.inactive ha]
  exact ⟨rfl, rfl, rfl, rfl⟩

/-- Settles O30: a reset window has no magic byte to come to the front in 20 pushes; a frame's own 21 bytes
report it. -/
theorem noFrameBeforePush21 : Obligations.NoFrameBeforePush21 := by
  unfold Obligations.NoFrameBeforePush21
  constructor
  · intro k s hs hw hr hlen
    exact outputs_frameOk_of_noMagicWithin k s hs hr 20 le_rfl (hw ▸ resetWindow_noMagicWithin) hlen
  · exact ⟨emptyFrame, windowBeats_reported ((validate_iff_isFrame _).mp (validate_goodFrame _))⟩

/-- Settles O54, by the beat of the cycle: RESET and IDLE report nothing, and a `PUSH` without a frame keeps `held`. -/
theorem noFrameNoEvent : Obligations.NoFrameNoEvent := by
  unfold Obligations.NoFrameNoEvent
  intro s t hs h hok
  obtain ⟨h9, -, ht⟩ | ⟨h9, -, ht⟩ | ⟨b, h9, -, ht⟩ := step_next_cases hs h <;> rw [h9, ht]
  · exact ⟨rfl, nofun, fun _ => rfl⟩
  · exact ⟨rfl, fun _ => rfl, nofun⟩
  · obtain ⟨-, e, -, hpush⟩ | ⟨-, hpush⟩ := pushBeat_cases b { s with input := s.input.tail }
    · rw [ht, hpush, latch_out, frameBeat_frameOk] at hok
      cases hok
    · rw [hpush, latch_out, latch_held, syncLossBeat_event]
      exact ⟨rfl, fun _ => rfl, nofun⟩

/-- Settles O57, by induction over the run from its end: a beat kept acts on equal `W` and `held`, a beat dropped is an
IDLE. -/
theorem idleBeatsAreNotObserved : Obligations.IdleBeatsAreNotObserved := by
  unfold Obligations.IdleBeatsAreNotObserved
  intro ws
  induction ws using List.reverseRecOn with
  | nil => rfl
  | append_singleton ws w ih =>
    rw [List.filter_append, List.filter_singleton]
    cases hkeep : isResetBeat w || (pushedByte w).isSome with
    | true =>
      obtain ⟨o, ho⟩ := exists_observation ws
      obtain ⟨t, hstep⟩ := exists_step_of_boundary (s := o.withBeat w) rfl
      rw [cond_true, observation_concat (ih.trans ho) hstep, observation_concat ho hstep]
    | false =>
      obtain ⟨h9, h8⟩ := idle_of_not_reset_or_push hkeep
      rw [cond_false, List.append_nil, ih, observation_concat_idle h9 h8]

/-- Settles O58, by induction over the beats after the RESET from their end: each acts on the `W` and `held` that they
have as a run of their own. -/
theorem resetStartsTheRunAfresh : Obligations.ResetStartsTheRunAfresh := by
  unfold Obligations.ResetStartsTheRunAfresh
  intro us vs w h9
  obtain ⟨o, ho⟩ := exists_observation us
  suffices h : ∃ p, observation vs = some p ∧
      observation (us ++ w :: vs) = some { beats := o.beats ++ p.beats, window := p.window, held := p.held } by
    obtain ⟨p, hp, hall⟩ := h
    exact ⟨o, p, ho, hp, hall⟩
  induction vs using List.reverseRecOn with
  | nil =>
    obtain ⟨hempty, -⟩ := observationGrowsByOneBeat
    exact ⟨_, hempty, (observation_concat_reset ho h9).trans (by rw [List.append_nil]; rfl)⟩
  | append_singleton vs v ih =>
    obtain ⟨p, hp, hall⟩ := ih
    obtain ⟨t, hstep⟩ := exists_step_of_boundary (s := p.withBeat v) rfl
    refine ⟨_, observation_concat hp hstep, ?_⟩
    rw [← List.cons_append, ← List.append_assoc, observation_concat hall hstep, List.append_assoc]

/-- Settles O17: the clock edge of RESET writes every field of the reset state but the beats still to come. -/
theorem resetClears : Obligations.ResetClears := by
  unfold Obligations.ResetClears
  intro s
  rw [exec_reset, State.latch]
  exact ⟨rfl, rfl⟩

/-- Settles O20: the clock edge of IDLE writes `W` and `held` back and the output register zero. -/
theorem idleKeepsState : Obligations.IdleKeepsState := by
  unfold Obligations.IdleKeepsState
  intro s
  rw [exec_idle, State.latch, OutBeat.zero]

/-- Settles O52, row by row: with `active = 1` the estimate in flight is reported as it is, with `active = 0` no
touch. -/
theorem edgeRowsEndThePush : Obligations.EdgeRowsEndThePush := by
  unfold Obligations.EdgeRowsEndThePush
  intro s e hs
  have hflight : s.stage.inFlight = e := by rw [hs, inFlight_edge]
  refine ⟨fun _ ha => ?press, fun _ _ => ?release, fun _ _ => ?stayReleased, fun _ ha => ?stayHeld⟩
  case press => rw [exec_edgePress, State.finishEdge, State.latch, hflight, withActive_self e ha]
  case release => rw [exec_edgeRelease, State.finishEdge, State.latch, withActive_false]
  case stayReleased => rw [exec_edgeStayReleased, State.finishEdge, State.latch, withActive_false]
  case stayHeld => rw [exec_edgeStayHeld, State.finishEdge, State.latch, hflight, withActive_self e ha]

end Sys2Proof.Machine
end

section
/-! # Validator: the additive checksum and what it can and cannot see

First the facts later proofs need (the byte sum over the payload's index range, the 8-bit accumulator, the wire bits of a
good frame), then the statements O35, O36 and O37. -/

namespace Sys2Proof.Machine

/-! ### The byte sum of a payload (rule R98) -/

/-- The sum over the payload list is the sum over the payload's index range. -/
theorem sum_toList_payload (p : Payload) : (p.toList.map BitVec.toNat).sum = ∑ j : Fin 17, (p[j.val]).toNat := by
  rw [← List.sum_ofFn]
  refine congrArg List.sum (List.ext_getElem ?length fun j _ _ => ?entry)
  case length => rw [List.length_map, Vector.length_toList, List.length_ofFn]
  case entry => rw [List.getElem_map, Vector.getElem_toList, List.getElem_ofFn]

theorem toNat_checksum_eq_sum (p : Payload) :
    (checksum p).toNat = (0xFF + (∑ j : Fin 17, (p[j.val]).toNat) + 0xA0) % 256 := by
  rw [toNat_checksum, sum_toList_payload]

/-- 17 bytes of at most 255 each (rule R98). -/
theorem sum_payload_le (p : Payload) : ∑ j : Fin 17, (p[j.val]).toNat ≤ 17 * 255 :=
  Finset.sum_le_card_nsmul _ _ 255 fun j _ => Nat.le_of_lt_succ (p[j.val]).isLt

/-- A reordering keeps the exact byte sum, and with it the checksum (rule R102). -/
theorem checksum_eq_of_perm {p q : Payload} (h : p.toList.Perm q.toList) : checksum p = checksum q := by
  rw [checksum, checksum, (h.map BitVec.toNat).sum_eq]

/-! ### The 8-bit accumulator (rule R99) -/

/-- An accumulator that wraps at every addition ends with the exact sum reduced once. -/
theorem foldl_add_eq_ofNat_sum (q : List Byte) (a : Byte) :
    q.foldl (· + ·) a = BitVec.ofNat 8 (a.toNat + (q.map BitVec.toNat).sum) := by
  induction q generalizing a with
  | nil => simp
  | cons b q ih =>
    rw [List.foldl_cons, ih, List.map_cons, List.sum_cons]
    apply BitVec.eq_of_toNat_eq
    simp only [BitVec.toNat_add, BitVec.toNat_ofNat]
    omega

/-! ### The vertical wire bits of a good frame (rule R111) -/

theorem vTouched_goodFrame (p : Payload) {y : Nat} (hy : y < 76) :
    VTouched (goodFrame p) y ↔ (p[(75 - y) / 8]).getLsbD ((75 - y) % 8) = true := by
  simp only [VTouched, goodFrame, frameWindow_payload p _ ((75 - y) / 8) (by omega), hy, exists_true_left]

/-- The payload `01 00 ...` of rule R102's example. -/
def payloadOneFirst : Payload := #v[1, 0, 0, 0, 0, 0, 0, 0, 0, 0, 0, 0, 0, 0, 0, 0, 0]

/-- The payload `00 01 ...` of rule R102's example. -/
def payloadOneSecond : Payload := #v[0, 1, 0, 0, 0, 0, 0, 0, 0, 0, 0, 0, 0, 0, 0, 0, 0]

/-! ### The statements -/

/-- Settles O35: the two tests of VALIDATE side by side, and the exact sum of 17 bytes. -/
theorem validateIsMagicAndChecksum : Obligations.ValidateIsMagicAndChecksum := by
  unfold Obligations.ValidateIsMagicAndChecksum
  refine ⟨fun w => ?tests, payloadOf_getElem, fun p => ⟨toNat_checksum_eq_sum p, ?bound⟩, ?zeros⟩
  case tests => rw [validate_eq_true, magicOk_eq_true_iff, checksumByte, and_assoc, and_assoc]
  case bound =>
    have hsum := sum_payload_le p
    omega
  case zeros => decide

/-- Settles O36: each accumulator ends with its start and the bytes it met summed exactly and reduced once, and a
reordering keeps that sum. -/
theorem checksumForms : Obligations.ChecksumForms := by
  unfold Obligations.ChecksumForms
  intro p
  have hform : checksum p = BitVec.ofNat 8 ((∑ j : Fin 17, (p[j.val]).toNat) + 0x9F) := by
    apply BitVec.eq_of_toNat_eq
    rw [toNat_checksum_eq_sum, BitVec.toNat_ofNat]
    omega
  refine ⟨hform, fun q hq => ?from9F, fun q hq => ?fromFF⟩
  case from9F =>
    rw [foldl_add_eq_ofNat_sum, (hq.map BitVec.toNat).sum_eq, sum_toList_payload, hform, add_comm]
    rfl
  case fromFF =>
    rw [foldl_add_eq_ofNat_sum, (hq.map BitVec.toNat).sum_eq, List.map_cons, List.sum_cons, checksum, add_assoc,
      add_comm (List.sum _)]
    rfl

/-- Settles O37: mod 256 the constants of the sum cancel. The example's payloads are reorderings of each other, and their
set bit stands at logical bits 0 and 8 of the vertical axis. -/
theorem checksumSeesOnlySum : Obligations.ChecksumSeesOnlySum := by
  unfold Obligations.ChecksumSeesOnlySum
  refine ⟨fun p q => ?iff, fun _ _ => checksum_eq_of_perm, payloadOneFirst, payloadOneSecond, ?perm, ?sum, ?touches⟩
  case iff =>
    rw [← BitVec.toNat_inj, toNat_checksum_eq_sum, toNat_checksum_eq_sum]
    omega
  case perm => exact List.Perm.swap 0 1 (List.replicate 15 0)
  case sum => decide
  case touches =>
    simp only [vTouched_goodFrame _ (show 75 < 76 by decide), vTouched_goodFrame _ (show 67 < 76 by decide)]
    decide

end Sys2Proof.Machine
end

section
/-! # DECODE and the wire bits (rules R111, R112) -/

namespace Sys2Proof.Machine

/-- Settles O40: rule R111 at logical bit `y` is its form by entries at `k = 75 - y`, since `75 - k` is `y` again. -/
theorem decodeReadsAxisBits : Obligations.DecodeReadsAxisBits := by
  unfold Obligations.DecodeReadsAxisBits Config.bitOrder
  refine fun w => ⟨verticalOf_getElem w, fun y hy => ?logical, horizontalOf_getElem w⟩
  case logical =>
    have hback : 75 - (75 - y) = y := Nat.sub_sub_self (Nat.le_of_lt_succ hy)
    rw [verticalOf_getElem w (75 - y) (by omega)]
    simp only [hback]

end Sys2Proof.Machine
end

section
/-! # Estimator: the box of a pair set, and the normalized point

First the facts later proofs need (the two spellings of an axis' set entries, the pair set of rule R126, one box per
pair set, the set entries of two touches, halving a sum), then the statements O44 to O50. -/

namespace Sys2Proof.Machine

/-! ### The set entries of an axis and the pair set (rules R126, R129) -/

/-- The positions of an axis as `Fin n` values give the same set entries as the indices below `n`. -/
theorem setOf_exists_fin_eq_setEntries {n : ℕ} (v : Vector Bool n) :
    {i | ∃ x : Fin n, v[x.val] = true ∧ x.val = i} = setEntries v := by
  ext i
  constructor
  · rintro ⟨x, hx, rfl⟩
    exact ⟨x.isLt, hx⟩
  · rintro ⟨hi, hx⟩
    exact ⟨⟨i, hi⟩, hx, rfl⟩

theorem exists_fin_iff_setEntries_nonempty {n : ℕ} (v : Vector Bool n) :
    (∃ x : Fin n, v[x.val] = true) ↔ (setEntries v).Nonempty := by
  rw [← setOf_exists_fin_eq_setEntries]
  exact ⟨fun ⟨x, hx⟩ => ⟨x.val, x, hx, rfl⟩, fun ⟨_, x, hx, _⟩ => ⟨x, hx⟩⟩

/-- The pair set of rule R126. -/
def pairSet (h : Horizontal) (v : Vertical) : Set (Fin 48 × Fin 76) :=
  {p | h[p.1.val] = true ∧ v[p.2.val] = true}

/-- Rule R129: the pair set, read as numbers, is the product of the two axes' set entries. -/
theorem pairSet_image_val (h : Horizontal) (v : Vertical) :
    (fun p : Fin 48 × Fin 76 => (p.1.val, p.2.val)) '' pairSet h v = setEntries h ×ˢ setEntries v := by
  rw [← countedPairs_of_forall_mem h v (ps := Finset.univ.toList) fun p => Finset.mem_toList.mpr (Finset.mem_univ p)]
  ext q
  simp only [countedPairs, pairSet, Set.mem_image, Set.mem_ofPred_eq, Finset.mem_toList, Finset.mem_univ, true_and,
    eq_comm]

theorem pairSet_nonempty_iff (h : Horizontal) (v : Vertical) :
    (pairSet h v).Nonempty ↔ (setEntries h).Nonempty ∧ (setEntries v).Nonempty := by
  rw [← Set.prod_nonempty_iff, ← pairSet_image_val, Set.image_nonempty]

/-- Once there is a pair, the `x` that occur in the pair set are all the set entries of the horizontal axis. -/
theorem pairSet_image_fst {h : Horizontal} {v : Vertical} (hP : (pairSet h v).Nonempty) :
    (fun p => p.1.val) '' pairSet h v = setEntries h := by
  rw [← Set.fst_image_prod (setEntries h) ((pairSet_nonempty_iff h v).mp hP).2, ← pairSet_image_val, Set.image_image]

/-- Once there is a pair, the `y` that occur in the pair set are all the set entries of the vertical axis. -/
theorem pairSet_image_snd {h : Horizontal} {v : Vertical} (hP : (pairSet h v).Nonempty) :
    (fun p => p.2.val) '' pairSet h v = setEntries v := by
  rw [← Set.snd_image_prod ((pairSet_nonempty_iff h v).mp hP).1 (setEntries v), ← pairSet_image_val, Set.image_image]

/-! ### One box per pair set (rule R128) -/

theorem Box.Bounds.unique {P : Set (ℕ × ℕ)} {b c : Box} (hb : b.Bounds P) (hc : c.Bounds P) : b = c := by
  rw [Box.mk.injEq]
  exact ⟨hb.minX.unique hc.minX, hb.maxX.unique hc.maxX, hb.minY.unique hc.minY, hb.maxY.unique hc.maxY⟩

theorem Box.Bounds.ne_empty {P : Set (ℕ × ℕ)} {b : Box} (hb : b.Bounds P) : P ≠ ∅ :=
  (Set.image_nonempty.mp hb.minX.nonempty).ne_empty

/-- The pairs alone determine what a scan finds, whatever the order it met them in. -/
theorem FoundBox.unique {P : Set (ℕ × ℕ)} {b c : Option Box} (hb : FoundBox P b) (hc : FoundBox P c) : b = c := by
  cases b with
  | none =>
    cases c with
    | none => rfl
    | some c => exact absurd hb hc.ne_empty
  | some b =>
    cases c with
    | none => exact absurd hc hb.ne_empty
    | some c => exact congrArg some (Box.Bounds.unique hb hc)

/-! ### Two touches (rule R134) -/

/-- An axis that is touched at two positions has those two set entries, one where they are equal. -/
theorem setEntries_ofFn_pair {n : ℕ} (a b : Fin n) :
    setEntries (Vector.ofFn fun x => decide (x = a ∨ x = b)) = {a.val, b.val} := by
  ext i
  simp only [setEntries, Set.mem_ofPred_eq, Vector.getElem_ofFn, decide_eq_true_eq, Set.mem_insert_iff,
    Set.mem_singleton_iff, Fin.ext_iff]
  exact ⟨fun ⟨_, h⟩ => h, fun h => ⟨by omega, h⟩⟩

/-! ### The normalized point (rule R130) -/

/-- Halving first loses nothing exactly where the sum is even. -/
theorem div_two_mul_eq_half_div_iff_even (n : ℕ) {d d₂ : ℚ} (hd : d ≠ 0) (hd₂ : d₂ = 2 * d) :
    (n : ℚ) / d₂ = ((n / 2 : ℕ) : ℚ) / d ↔ n % 2 = 0 := by
  rw [hd₂, ← div_div, div_left_inj' hd, div_eq_iff two_ne_zero]
  norm_cast
  omega

theorem point_exact {o : OutBeat} (ho : o.active = true) :
    o.point .exact = some ((o.xNum.toNat : ℚ) / 96, (o.yNum.toNat : ℚ) / 152) := by
  rw [OutBeat.point, if_pos ho, pointX, pointY]

/-! ### The statements -/

/-- Settles O44: ESTIMATE hands on `estimate h v`, whose closed form is over the set entries of each axis. -/
theorem estimateIsPerAxisBox : Obligations.EstimateIsPerAxisBox := by
  unfold Obligations.EstimateIsPerAxisBox
  intro s h v
  refine ⟨estimate h v, exec_estimate h v s, ?active, ?box⟩
  case active =>
    rw [exists_fin_iff_setEntries_nonempty, exists_fin_iff_setEntries_nonempty, estimate_active_iff]
  case box =>
    rw [setOf_exists_fin_eq_setEntries, setOf_exists_fin_eq_setEntries]
    exact estimate_isLeast_isGreatest

/-- Settles O45: where there is a pair, each axis' coordinates over the pair set are its set entries, so that the closed
form is the box of the pairs. -/
theorem estimateIsPairBox : Obligations.EstimateIsPairBox := by
  unfold Obligations.EstimateIsPairBox
  rintro h v P (rfl : P = pairSet h v)
  have hactive : (estimate h v).active = true ↔ (pairSet h v).Nonempty :=
    (estimate_active_iff h v).trans (pairSet_nonempty_iff h v).symm
  refine ⟨hactive, fun hP => ?box⟩
  rw [pairSet_image_fst hP, pairSet_image_snd hP]
  exact estimate_isLeast_isGreatest (hactive.mpr hP)

/-- Settles O46: both scans find the box of the same pairs, and there is one such box. -/
theorem scanOrderIsFree : Obligations.ScanOrderIsFree := by
  unfold Obligations.ScanOrderIsFree
  intro h v ps hps
  have hlist := foldl_scanPair_foundBox h v ps (P := ∅) (b := none) rfl
  rw [Set.union_empty, countedPairs_of_forall_mem h v hps] at hlist
  exact hlist.unique (scanPairs_foundBox h v)

/-- Settles O47: the ranges every estimate is in; without a touch it is the estimate whose fields are all 0. -/
theorem estimateRanges : Obligations.EstimateRanges := by
  unfold Obligations.EstimateRanges
  rintro h v e rfl
  obtain ⟨hinactive, hmaxX, hmaxY, hminX, hminY, hxNum, hyNum⟩ := estimate_inRange h v
  refine ⟨hminX, hmaxX, hminY, hmaxY, hxNum, hyNum, fun ha => ?zeros⟩
  rw [hinactive ha]
  exact ⟨rfl, rfl, rfl, rfl, rfl, rfl⟩

/-- Settles O48: by the closed form the box is that of two set entries on each axis, and the least and the greatest of
two numbers sum to their sum. -/
theorem ghostsAreKept : Obligations.GhostsAreKept := by
  unfold Obligations.GhostsAreKept
  rintro x₁ x₂ y₁ y₂ e rfl
  have hsetX := setEntries_ofFn_pair x₁ x₂
  have hsetY := setEntries_ofFn_pair y₁ y₂
  -- The two axes stay opaque from here: only their set entries matter.
  generalize (Vector.ofFn fun x => decide (x = x₁ ∨ x = x₂)) = h at hsetX ⊢
  generalize (Vector.ofFn fun y => decide (y = y₁ ∨ y = y₂)) = v at hsetY ⊢
  have hactive : (estimate h v).active = true := by
    rw [estimate_active_iff, hsetX, hsetY]
    exact ⟨Set.insert_nonempty _ _, Set.insert_nonempty _ _⟩
  obtain ⟨hminX, hmaxX, hminY, hmaxY⟩ := estimate_isLeast_isGreatest hactive
  rw [hsetX] at hminX hmaxX
  rw [hsetY] at hminY hmaxY
  have eminX := hminX.unique isLeast_pair
  have emaxX := hmaxX.unique isGreatest_pair
  have eminY := hminY.unique isLeast_pair
  have emaxY := hmaxY.unique isGreatest_pair
  have hin := estimate_inRange h v
  refine ⟨hactive, eminX, emaxX, eminY, emaxY, ?xNum, ?yNum⟩
  case xNum => rw [hin.xNum_eq, eminX, emaxX, min_add_max]
  case yNum => rw [hin.yNum_eq, eminY, emaxY, min_add_max]

/-- Settles O49: the point is `x_num / 96`, `y_num / 152`, with each sum in its range; a sum is 0 only where both its
bounds are. -/
theorem pointRange : Obligations.PointRange := by
  unfold Obligations.PointRange
  rintro h v ev e rfl ha
  obtain ⟨-, hmaxX, hmaxY, hminX, hminY, hxNum, hyNum⟩ := estimate_inRange h v
  have hpoint := point_exact (o := frameBeat (estimate h v) ev) ha
  generalize estimate h v = e at *
  have hx : e.xNum.toNat ≤ 94 := by omega
  have hy : e.yNum.toNat ≤ 150 := by omega
  have hx' : (e.xNum.toNat : ℚ) ≤ 94 := by exact_mod_cast hx
  have hy' : (e.yNum.toNat : ℚ) ≤ 150 := by exact_mod_cast hy
  simp only [frameBeat_xNum, frameBeat_yNum] at hpoint
  refine ⟨_, _, hpoint, ⟨_, hx, rfl⟩, ⟨_, hy, rfl⟩, by positivity, by linarith, by positivity, by linarith, ?xZero,
    ?yZero⟩
  case xZero =>
    intro hzero
    have hn : e.xNum.toNat = 0 := by simpa using hzero
    constructor <;> bv_omega
  case yZero =>
    intro hzero
    have hn : e.yNum.toNat = 0 := by simpa using hzero
    constructor <;> bv_omega

/-- Settles O50: FLOOR halves before the division by the 48 or 76 positions, EXACT divides by twice as many. -/
theorem midpointModesDifferOnOddSums : Obligations.MidpointModesDifferOnOddSums := by
  unfold Obligations.MidpointModesDifferOnOddSums
  refine ⟨fun n => ?x, fun n => ?y, fun o ho => point_exact ho⟩
  case x => exact div_two_mul_eq_half_div_iff_even n.toNat (by norm_num) (by norm_num)
  case y => exact div_two_mul_eq_half_div_iff_even n.toNat (by norm_num) (by norm_num)

end Sys2Proof.Machine
end

section
/-! # Edge Detector: `held` follows `active`, and the events alternate

First the facts later proofs need (what the end of a `PUSH` writes, the events reported beat by beat, a cycle's event as
EDGE's of the `held` before and after it), then the statements O33, O53 and O51. -/

namespace Sys2Proof.Machine

/-! ### The end of a PUSH (rule R82) -/

/-- What an EDGE row writes, whatever is in flight: its `held` and its event, and not the window. -/
theorem finishEdge_held_event_window (s : State) (held a : Bool) (ev : Event) :
    (s.finishEdge held a ev).held = held ∧ (s.finishEdge held a ev).out.event = ev.code ∧
      (s.finishEdge held a ev).window = s.window :=
  ⟨rfl, rfl, rfl⟩

/-! ### The events reported beat by beat (rules R66, R151) -/

@[simp] theorem Event.ofCode_code (ev : Event) : Event.ofCode ev.code = some ev := by
  cases ev <;> rfl

theorem reportedEvents_cons_of_none {o : OutBeat} (os : List OutBeat) (ho : o.event = Event.none.code) :
    reportedEvents (o :: os) = reportedEvents os := by
  simp [reportedEvents, ho]

theorem reportedEvents_cons_of_press {o : OutBeat} (os : List OutBeat) (ho : o.event = Event.press.code) :
    reportedEvents (o :: os) = .press :: reportedEvents os := by
  simp [reportedEvents, ho]

theorem reportedEvents_cons_of_release {o : OutBeat} (os : List OutBeat) (ho : o.event = Event.release.code) :
    reportedEvents (o :: os) = .release :: reportedEvents os := by
  simp [reportedEvents, ho]

/-- EDGE's event comes first where the events after it alternate from the `held` that EDGE leaves: PRESS leads from
Released to Held, RELEASE back, and without an event `held` stays (rules R146 to R149). -/
theorem alternates_cons_edge {held a : Bool} {o : OutBeat} {os : List OutBeat}
    (ho : o.event = (edge held a).2.code) (hos : Alternates a (reportedEvents os)) :
    Alternates held (reportedEvents (o :: os)) := by
  cases held with
  | false =>
    cases a with
    | false => rwa [reportedEvents_cons_of_none os ho]
    | true =>
      rw [reportedEvents_cons_of_press os ho]
      exact ⟨rfl, hos⟩
  | true =>
    cases a with
    | false =>
      rw [reportedEvents_cons_of_release os ho]
      exact ⟨rfl, hos⟩
    | true => rwa [reportedEvents_cons_of_none os ho]

/-! ### A cycle's event (rules R150, R151) -/

/-- Where `held` stays, EDGE answers no event (rules R148, R149). -/
@[simp] theorem edge_self_snd (held : Bool) : (edge held held).2 = .none := by
  cases held <;> rfl

/-- A `PUSH` reports the event that leads from `held` before it to `held` after it, frame or not. -/
theorem pushBeat_event (b : Byte) (s : State) :
    (pushBeat b s).out.event = (edge s.held (pushBeat b s).held).2.code := by
  obtain ⟨-, e, -, h⟩ | ⟨-, h⟩ := pushBeat_cases b s
  · rw [h, latch_out, latch_held, frameBeat_event]
  · rw [h, latch_out, latch_held, edge_self_snd, syncLossBeat_event, Event.code]

/-- So does every cycle but a RESET, which clears `held` without a RELEASE (rule R87). -/
theorem step_event {s t : State} (hs : s.stage = .boundary) (h9 : s.pins.getLsbD 9 = false)
    (h : step s = .next t) : t.out.event = (edge s.held t.held).2.code := by
  obtain ⟨hrst, -, -⟩ | ⟨-, -, ht⟩ | ⟨b, -, -, ht⟩ := step_next_cases hs h
  · cases h9.symm.trans hrst
  · rw [ht, edge_self_snd, zero_event, Event.code]
  · rw [ht]
    exact pushBeat_event b { s with input := s.input.tail }

/-! ### The statements -/

/-- Settles O33, by induction over the cycles: the first one's event leads from `held` to the `held` that the events of
the others alternate from. -/
theorem eventsAlternate : Obligations.EventsAlternate := by
  unfold Obligations.EventsAlternate
  intro k s hs hr
  induction k, s, hs, hr using noReset_run_induction with
  | zero s hs hr => exact trivial
  | succ k s t hs hr ht hr' h9 hstep hinput ih =>
    rw [outputs_succ k hstep]
    exact alternates_cons_edge (step_event hs h9 hstep) ih

/-- Settles O53: the row that runs at the EDGE place is the one of `held` and the `active` in flight, and every cycle
leaves a beat consistent with its `held`. -/
theorem edgeClosedForm : Obligations.EdgeClosedForm := by
  unfold Obligations.EdgeClosedForm
  refine ⟨fun s e hs => ?row, fun s t hs h hok => (step_boundary_consistent hs h).level hok⟩
  case row =>
    obtain ⟨hheld, hevent, hwindow⟩ := finishEdge_held_event_window s e.active e.active (edge s.held e.active).2
    refine ⟨_, (step_at_edge hs rfl rfl).trans (exec_decodeEdge s.held e.active s), hheld, ?event, ?active, hwindow,
      finishEdge_input ..⟩
    case event => rw [hevent, edge_snd_code]
    case active => rw [finishEdge_out, frameBeat_active, withActive_active]

/-- Settles O51: the four words are among those of rule R73, and each row is one end of a `PUSH`. -/
theorem edgeRowsWriteHeldAndEvent : Obligations.EdgeRowsWriteHeldAndEvent := by
  unfold Obligations.EdgeRowsWriteHeldAndEvent
  obtain ⟨-, -, -, -, -, hpress, hrelease, hstayReleased, hstayHeld⟩ := specWordsDecode
  refine ⟨hpress, hrelease, hstayReleased, hstayHeld, fun s => ⟨?press, ?release, ?stayReleased, ?stayHeld⟩⟩
  case press => exact ⟨_, exec_edgePress s, finishEdge_held_event_window ..⟩
  case release => exact ⟨_, exec_edgeRelease s, finishEdge_held_event_window ..⟩
  case stayReleased => exact ⟨_, exec_edgeStayReleased s, finishEdge_held_event_window ..⟩
  case stayHeld => exact ⟨_, exec_edgeStayHeld s, finishEdge_held_event_window ..⟩

end Sys2Proof.Machine
end

section
/-! # Exceptions: the one place where a step can stop, and why the invariant shuts it out

First the facts later proofs need (every operation completes, the states with a next state), then the statement O11. -/

namespace Sys2Proof.Machine

/-! ### Every operation completes (rule R160) -/

/-- No operation of the table faults or refuses once it is decoded, whatever its operands and state. -/
theorem exists_exec_next (i : Instr) (s : State) : ∃ t, exec i s = .next t := by
  cases i with
  | validate w =>
    cases hv : validate w with
    | true => exact ⟨_, exec_validate_of_true w s hv⟩
    | false => exact ⟨_, exec_validate_of_false w s hv⟩
  | reset | idle | push | shift | decode | estimate
  | edgePress | edgeRelease | edgeStayReleased | edgeStayHeld => exact ⟨_, rfl⟩

theorem exists_step_of_step_eq_exec {s u : State} {i : Instr} (h : step s = exec i u) : ∃ t, step s = .next t :=
  h ▸ exists_exec_next i u

/-! ### The states with a next state (rules R110, R162) -/

/-- A step stops at the DECODE place alone, where the decoder refuses a window that is not a frame. -/
theorem exists_step_iff (s : State) : (∃ t, step s = .next t) ↔ (s.stage = .decode → IsFrame s.window) := by
  constructor
  case mp =>
    intro ⟨t, ht⟩ hs
    by_contra hf
    rw [step_at_decode_of_not_isFrame hs hf] at ht
    cases ht
  case mpr =>
    intro hframe
    cases hs : s.stage with
    | boundary => exact exists_step_of_boundary hs
    | shift b => exact exists_step_of_step_eq_exec (step_at_shift hs)
    | validate => exact exists_step_of_step_eq_exec (step_at_validate hs)
    | decode => exact exists_step_of_step_eq_exec (step_at_decode_of_isFrame hs (hframe hs))
    | estimate h v => exact exists_step_of_step_eq_exec (step_at_estimate hs)
    | edge e => exact exists_step_of_step_eq_exec (step_at_edge hs rfl rfl)

/-- The invariant lets DECODE be reached only with a frame in the window (rule R110). -/
theorem State.Inv.isFrame_of_decode {s : State} (hinv : s.Inv) (hs : s.stage = .decode) : IsFrame s.window := by
  have hlegal := hinv.stage
  rw [hs] at hlegal
  exact (validate_iff_isFrame s.window).mp hlegal

/-! ### The statement -/

/-- Settles O11: a step could stop only at a DECODE without a frame, which the invariant excludes. -/
theorem invariantStatesNeverStop : Obligations.InvariantStatesNeverStop := by
  unfold Obligations.InvariantStatesNeverStop
  intro s hinv
  exact (exists_step_iff s).mpr hinv.isFrame_of_decode

end Sys2Proof.Machine
end

section
/-! # Reset and power-on: the reset state, and what a block that was not reset can report

First the facts later proofs need (the window one byte before a frame, the frame without a touch, the release that such
a frame brings a Held block), then the statements O12 and O19. -/

namespace Sys2Proof.Machine

/-! ### One byte before a frame (rule R83) -/

/-- The window that the last byte of `F` completes: the other 20 bytes of `F` stand behind a byte 0. -/
def windowBeforeLast (F : Window) : Window :=
  Vector.ofFn fun i : Fin 21 => if i.val = 0 then 0 else F[i.val - 1]

theorem windowBeforeLast_getElem_succ (F : Window) (i : Nat) (h : i < 20) : (windowBeforeLast F)[i + 1] = F[i] := by
  rw [windowBeforeLast, Vector.getElem_ofFn]
  exact if_neg i.succ_ne_zero

theorem shiftWindow_windowBeforeLast (F : Window) : shiftWindow (windowBeforeLast F) F[20] = F := by
  apply Vector.ext
  intro i hi
  rw [shiftWindow_getElem _ _ _ hi]
  split
  case isTrue h => exact windowBeforeLast_getElem_succ F i h
  case isFalse h =>
    obtain rfl : i = 20 := by omega
    rfl

/-! ### The frame without a touch (rules R70, R112) -/

theorem emptyFrame_isFrame : IsFrame emptyFrame := (validate_iff_isFrame _).mp (validate_goodFrame _)

theorem horizontalOf_emptyFrame : horizontalOf Config.bitOrder emptyFrame = Vector.replicate 48 false := by
  obtain ⟨-, -, -, hh, -⟩ := touchFrameDecodesBack (Vector.replicate 48 false) (Vector.replicate 76 false)
  exact hh

theorem emptyFrame_not_hTouched (x : Nat) : ¬ HTouched emptyFrame x := by
  change x ∉ {x | HTouched emptyFrame x}
  rw [← setEntries_horizontalOf, horizontalOf_emptyFrame]
  simp [setEntries]

/-! ### A RELEASE from Held (rules R129, R147) -/

/-- A Held block that completes a frame without a horizontal touch reports a RELEASE. -/
theorem pushBeat_release_of_not_hTouched {b : Byte} {s : State} (hheld : s.held = true)
    (hF : IsFrame (shiftWindow s.window b)) (hno : ∀ x, ¬ HTouched (shiftWindow s.window b) x) :
    (pushBeat b s).out.frameOk = true ∧ (pushBeat b s).out.event = Event.release.code := by
  obtain ⟨t, ht, -, -, -, -, hok, hactive, -, hevent, -⟩ := pushOfFrameReportsTouch s b _ rfl hF
  obtain rfl : pushBeat b s = t := Host.Outcome.next.inj ((exec_push b s).symm.trans ht)
  have hoff : (pushBeat b s).out.active = false := by
    rw [Bool.eq_false_iff, Ne, hactive]
    rintro ⟨⟨x, hx⟩, -⟩
    exact hno x hx
  rw [hoff, hheld] at hevent
  exact ⟨hok, hevent⟩

/-! ### The statements -/

/-- Settles O12: the machine stands between two cycles, and its output register is zero. -/
theorem resetHasInvariant : Obligations.ResetHasInvariant := by
  unfold Obligations.ResetHasInvariant
  exact inv_of_boundary reset_stage (zero_consistent _)

/-- Settles O19: RESET reads none of the power-on contents; and a block that comes up Held, one byte before a frame
without a touch, reports a RELEASE at its first push. -/
theorem powerOnNeedsReset : Obligations.PowerOnNeedsReset := by
  unfold Obligations.PowerOnNeedsReset
  constructor
  · intro w rest h9
    exact resetWinsOverByte { State.powerOn with input := w :: rest } rfl h9
  · have hshift := shiftWindow_windowBeforeLast emptyFrame
    refine ⟨{ window := windowBeforeLast emptyFrame, held := true, out := OutBeat.zero,
              input := [pushWord emptyFrame[20]], stage := .boundary },
      _, emptyFrame[20], rfl, rfl, step_of_pushWord rfl rfl, pushBeat_release_of_not_hTouched rfl ?frame ?noTouch⟩
    case frame =>
      rw [hshift]
      exact emptyFrame_isFrame
    case noTouch =>
      rw [hshift]
      exact emptyFrame_not_hTouched

end Sys2Proof.Machine
end
